-- ==== Sys2Proof/Word.lean ====
section
/-! DEFINITION. The two word types of the core: a byte (00_scope R12) and a 32-bit word of the command port
(00_scope R9, 30_encoding R80). -/

namespace Sys2Proof

/-- An 8-bit byte of IMEM, of ACC or of a wire format (00_scope R12). -/
abbrev Byte := BitVec 8

/-- A 32-bit word: a command or operand word, a timestamp, a counter, a register value (00_scope R9). -/
abbrev Word := BitVec 32

end Sys2Proof
end

