-- ==== Sys2Proof/Syntax.lean ====
section
/-! DEFINITION. The six commands of 30_encoding R89 (the six rows of opcode_table.json). -/

namespace Sys2Proof

/-- The commands (30_encoding R82 to R89), one constructor a row of the opcode table. `rsv` is the command word's
reserved field: OP alone selects the command (R81), and a 1 in the field makes the command raise RESERVED_BITS when it is
executed (R97), so the field is part of the instruction (log entry 9). Operand words are 32 bits wide and used as they
are (R81). -/
inductive Instr where
  /-- RESET, format U (R84): `rsv` = CW[23:2], `enc` = UNIT[0], `dec` = UNIT[1]. -/
  | reset (rsv : BitVec 22) (enc dec : Bool)
  /-- WRREG, format R (R83): `rsv` = CW[23:12], `addr` = CW[11:0], `data` the operand word DATA. -/
  | wrreg (rsv : BitVec 12) (addr : BitVec 12) (data : Word)
  /-- RDREG, format R (R83): `rsv` = CW[23:12], `addr` = CW[11:0]. -/
  | rdreg (rsv : BitVec 12) (addr : BitVec 12)
  /-- ENC_AU, format E (R85): `rsv` = CW[23:0]; operand words BASE, SIZE, PREFIX, DTS. -/
  | encAu (rsv : BitVec 24) (base size pfx dts : Word)
  /-- DEC_PKT, format D (R86): `rsv` = CW[23:1], `m` = CW[0]; operand words BASE, SIZE, OFFSET, TS. -/
  | decPkt (rsv : BitVec 23) (m : Bool) (base size offset ts : Word)
  /-- DEC_FLUSH, format Z (R87): `rsv` = CW[23:0]. -/
  | decFlush (rsv : BitVec 24)
  deriving DecidableEq, Repr

/-- The six defined opcodes, by name (30_encoding R89). -/
inductive Op where
  | reset | wrreg | rdreg | encAu | decPkt | decFlush
  deriving DecidableEq, Repr

end Sys2Proof
end

