-- ==== Sys2Proof/Decode.lean ====
section
/-! DEFINITION. From the words of the command port to an instruction, and back (30_encoding R80 to R89, R97, R99, R100).
Decoding is total on any list of words and rejects by name; the encoder is written from the same tables. -/

namespace Sys2Proof

/-- The opcode byte of a defined opcode (30_encoding R89). -/
def Op.code : Op → BitVec 8
  | .reset => 0x01#8
  | .wrreg => 0x02#8
  | .rdreg => 0x03#8
  | .encAu => 0x10#8
  | .decPkt => 0x20#8
  | .decFlush => 0x21#8

/-- The opcode map (30_encoding R89): every byte it does not list is illegal (R97). -/
def Op.ofCode (b : BitVec 8) : Option Op :=
  if b = 0x01#8 then some .reset
  else if b = 0x02#8 then some .wrreg
  else if b = 0x03#8 then some .rdreg
  else if b = 0x10#8 then some .encAu
  else if b = 0x20#8 then some .decPkt
  else if b = 0x21#8 then some .decFlush
  else none

/-- The opcode an instruction is selected by. -/
def Instr.op : Instr → Op
  | .reset _ _ _ => .reset
  | .wrreg _ _ _ => .wrreg
  | .rdreg _ _ => .rdreg
  | .encAu _ _ _ _ _ => .encAu
  | .decPkt _ _ _ _ _ _ => .decPkt
  | .decFlush _ => .decFlush

/-- How many words `k` a command occupies, from OP alone: 1 for every OP the map does not list (30_encoding R88). -/
def commandWords (op : BitVec 8) : Nat :=
  match Op.ofCode op with
  | some .wrreg => 2
  | some .encAu => 5
  | some .decPkt => 5
  | some .reset => 1
  | some .rdreg => 1
  | some .decFlush => 1
  | none => 1

/-- OP = CW[31:24] (30_encoding R81). -/
def opField (cw : Word) : BitVec 8 := cw.extractLsb' 24 8

/-- Why the words on the port give no instruction. -/
inductive DecodeReject where
  /-- There is no word at all (70_reset_and_hazards R220). -/
  | noCommand
  /-- The command word is there and an operand word is not (30_encoding R100). -/
  | incomplete (op : Op)
  /-- OP is not in the opcode map (30_encoding R97). -/
  | illegalOpcode (op : BitVec 8)
  deriving DecidableEq, Repr

/-- A command word of a known opcode and the words after it: the fields of its format, and the operand words it takes
(30_encoding R83 to R87, R99, R100). Reserved bits are kept, not refused: the command itself raises RESERVED_BITS (R81,
R97). -/
def decodeOp (o : Op) (cw : Word) (rest : List Word) : Except DecodeReject Instr :=
  match o with
  | .reset => .ok (.reset (cw.extractLsb' 2 22) (cw.getLsbD 0) (cw.getLsbD 1))
  | .wrreg =>
    match rest with
    | data :: _ => .ok (.wrreg (cw.extractLsb' 12 12) (cw.extractLsb' 0 12) data)
    | _ => .error (.incomplete .wrreg)
  | .rdreg => .ok (.rdreg (cw.extractLsb' 12 12) (cw.extractLsb' 0 12))
  | .encAu =>
    match rest with
    | base :: size :: pfx :: dts :: _ => .ok (.encAu (cw.extractLsb' 0 24) base size pfx dts)
    | _ => .error (.incomplete .encAu)
  | .decPkt =>
    match rest with
    | base :: size :: offset :: ts :: _ => .ok (.decPkt (cw.extractLsb' 1 23) (cw.getLsbD 0) base size offset ts)
    | _ => .error (.incomplete .decPkt)
  | .decFlush => .ok (.decFlush (cw.extractLsb' 0 24))

/-- Reads one command from the front of the words that have not been consumed: look up OP, then take the operand words
(30_encoding R80, R99). Total on any list of words. -/
def decode : List Word → Except DecodeReject Instr
  | [] => .error .noCommand
  | cw :: rest =>
    match Op.ofCode (opField cw) with
    | none => .error (.illegalOpcode (opField cw))
    | some o => decodeOp o cw rest

/-- The command word of an instruction: OP in CW[31:24], then the fields of its format from the left (30_encoding R82,
R89). -/
def commandWord : Instr → Word
  | .reset rsv enc dec => 0x01#8 ++ rsv ++ BitVec.ofBool dec ++ BitVec.ofBool enc
  | .wrreg rsv addr _ => 0x02#8 ++ rsv ++ addr
  | .rdreg rsv addr => 0x03#8 ++ rsv ++ addr
  | .encAu rsv _ _ _ _ => 0x10#8 ++ rsv
  | .decPkt rsv m _ _ _ _ => 0x20#8 ++ rsv ++ BitVec.ofBool m
  | .decFlush rsv => 0x21#8 ++ rsv

/-- The operand words of an instruction, in order (30_encoding R83 to R87). -/
def operandWords : Instr → List Word
  | .reset _ _ _ => []
  | .wrreg _ _ data => [data]
  | .rdreg _ _ => []
  | .encAu _ base size pfx dts => [base, size, pfx, dts]
  | .decPkt _ _ base size offset ts => [base, size, offset, ts]
  | .decFlush _ => []

/-- The words of an instruction as the host presents them (30_encoding R80). -/
def encode (i : Instr) : List Word := commandWord i :: operandWords i

/-- Word `j` of an instruction whose bits, the first word's lowest, are the low `nbits` bits of `w`. -/
def tableWord (nbits w j : Nat) : Word := BitVec.ofNat 32 ((w % 2 ^ nbits) >>> (32 * j))

/-- The five words (the longest command) of an instruction numbered as opcode_table.json numbers its bits; every bit
above `nbits` is 0 (log entry 4). -/
def tableWords (nbits w : Nat) : List Word :=
  [tableWord nbits w 0, tableWord nbits w 1, tableWord nbits w 2, tableWord nbits w 3, tableWord nbits w 4]

/-- The instruction the decoder reads from those words. -/
def decodeTableWord (nbits w : Nat) : Option Instr :=
  match decode (tableWords nbits w) with
  | .ok i => some i
  | .error _ => none

end Sys2Proof
end

