-- ==== Sys2Proof/Config.lean ====
section
/-! DEFINITION. The implementation parameters of 00_scope R9 and the two values the model chooses where the spec
gives none (log entries 1 and 3). The open parameter `C` is a field of State (DEC_CAP, 10_state R36), so that one model
covers every capacity; the open parameter `N_INST` is the length of `System.cores`. -/

namespace Sys2Proof.Config

/-- HDR: the bytes of the ADTS header region, and the initial fill-length (00_scope R9). -/
abbrev hdr : Nat := 7

/-- OVH: the MTU overhead, `cap = MTU - 20` (00_scope R9, 40_encoder R112). -/
abbrev overhead : Nat := 20

/-- The least legal MTU (10_state R22). -/
abbrev mtuMin : Nat := 21

/-- LMAX: the longest access unit ENC_AU accepts (00_scope R9). -/
abbrev auMax : Nat := 8191

/-- The least legal capacity C (00_scope R9). -/
abbrev capMin : Nat := 8

/-- The greatest legal capacity C (00_scope R9). -/
abbrev capMax : Nat := 8191

/-- The size of IMEM in bytes, 2^32 (20_memory R60). -/
abbrev imemSize : Nat := 2 ^ 32

/-- DESIGN CHOICE (log entry 1): the capacity C of `State.reset`. The spec leaves C open; 2055 is the value its own
programs P2 and P4 use. unsafe: only for a claim about `State.reset` alone. -/
def resetCap : Nat := 2055

/-- DESIGN CHOICE (log entry 3): what a byte of IMEM that no host write has set reads as. unsafe: the spec gives IMEM no
initial contents. -/
abbrev imemUnwritten : Byte := 0x00#8

/-- DESIGN CHOICE (log entry 2): what ACC[7..C) holds after power-on. unsafe as a value, though no output depends on it
(10_state R35). -/
abbrev accUnwritten : Byte := 0x00#8

end Sys2Proof.Config
end

