-- ==== Sys2Proof/Machine/State.lean ====
section
/-! DEFINITION. The whole state of one core and of what surrounds it: registers (10_state R20 to R49), accumulator,
command stream, IMEM and output log (20_memory R60 to R65). Plain data throughout. -/

namespace Sys2Proof.Machine

/-- The two situations in which a step has no next state. No instruction raises either: both are about words that are not
on the command port, and the core waits with all its state (60_exceptions R194). -/
inductive Fault where
  /-- Raised by `step` when the port holds no word at `cp`: the run has ended (70_reset_and_hazards R220) or the core
  waits (R213). safe: nothing is claimed of a core that is given no command. -/
  | endOfStream
  /-- Raised by `step` when a command's last words have not arrived: the command stays pending and has no effect
  (30_encoding R100; 93 U20 'stuck'). safe, as above. -/
  | commandPending
  deriving DecidableEq, Repr

/-- The refusals of the model. Every instruction has its meaning, so no arm of `exec` uses it. -/
inductive Refusal where
  /-- Raised by an arm of `exec` that has no meaning yet. safe. -/
  | notModelled (mnemonic : String)
  deriving DecidableEq, Repr

/-- IMEM: (address, byte) pairs, addresses strictly rising, none equal to what an unlisted address reads as
(20_memory R60; `Memory.wf` of Machine/Ops.lean). -/
abbrev Memory := List Host.Cell

/-- A FRAG event proper (20_memory R63). -/
structure Frag where
  payload : List Byte
  len : Nat
  marker : Bool
  ts : Word
  deriving DecidableEq, Repr

/-- What the RTP-packet-construction collaborator sees beside a FRAG event (20_memory R63; 10_state R24 to R26). -/
structure Beside where
  ssrc : Word
  pt : BitVec 8
  interleaved : BitVec 8
  srate : Word
  deriving DecidableEq, Repr

/-- An AU event (20_memory R64). -/
structure Au where
  bytes : List Byte
  len : Nat
  ts : Word
  deriving DecidableEq, Repr

/-- The events of the output log (20_memory R62). -/
inductive Event where
  /-- A fragment, and what the collaborator sees beside it (R63; log entry 7). -/
  | frag (f : Frag) (beside : Beside)
  /-- A completed access unit (R64). -/
  | au (a : Au)
  /-- The answer of an RDREG (R65). -/
  | resp (w : Word)
  deriving DecidableEq, Repr

/-- The encoder unit's registers (10_state R22 to R29, R33), reserved bits not stored: they read 0 (30_encoding R98). -/
structure Enc where
  mtu : BitVec 16
  cycle : Word
  ssrc : Word
  pt : BitVec 8
  interleaved : BitVec 8
  srate : Word
  locked : Bool
  auCnt : Word
  fragCnt : Word
  deriving DecidableEq, Repr

/-- DEC_CFG (10_state R30). -/
structure DecCfg where
  valid : Bool
  profile : BitVec 2
  sfIndex : BitVec 4
  channels : BitVec 3
  deriving DecidableEq, Repr

/-- The decoder unit's registers and accumulator (10_state R30 to R40). `fill` is FILL, `ts` is ACC_TS, `acc` is ACC,
`cap` is the instance's constant C (DEC_CAP, R36). -/
structure Dec where
  cfg : DecCfg
  locked : Bool
  warnNoCfg : Bool
  fill : Nat
  ts : Word
  acc : List Byte
  cap : Nat
  auCnt : Word
  ovfCnt : Word
  dropCnt : Word
  multiCnt : Word
  deriving DecidableEq, Repr

/-- ERR (10_state R41). -/
structure Err where
  code : BitVec 8
  op : BitVec 8
  deriving DecidableEq, Repr

/-- One core with its command stream, its input memory and its output log. -/
structure State where
  /-- The command pointer, an index into `stream` (10_state R21). -/
  cp : Nat
  enc : Enc
  dec : Dec
  err : Err
  /-- The words the host has presented on the command port, from word 0 (30_encoding R80; log entry 4). -/
  stream : List Word
  /-- The input memory, written by the host only (20_memory R60). -/
  imem : Memory
  /-- The output log, oldest event first (20_memory R62; log entry 6). -/
  log : List Event
  deriving DecidableEq, Repr

/-- The answer of a meaning. -/
abbrev Result := Host.Outcome State Fault Refusal

/-- ENC's registers after reset: all 0 (10_state R22 to R29, R47). -/
def Enc.reset : Enc :=
  { mtu := 0, cycle := 0, ssrc := 0, pt := 0, interleaved := 0, srate := 0, locked := false, auCnt := 0, fragCnt := 0 }

/-- ERR after power-on reset (10_state R41). -/
def Err.clear : Err := { code := 0x00#8, op := 0x00#8 }

/-- DEC's registers after power-on of an instance of capacity `c` (10_state R30 to R40, R47). ACC[0..7) is 00×7; the
spec gives ACC[7..C) no value (log entry 2). -/
def Dec.powerOn (c : Nat) : Dec :=
  { cfg := { valid := false, profile := 0, sfIndex := 0, channels := 0 }
    locked := false
    warnNoCfg := false
    fill := Config.hdr
    ts := 0
    acc := List.replicate c Config.accUnwritten
    cap := c
    auCnt := 0
    ovfCnt := 0
    dropCnt := 0
    multiCnt := 0 }

/-- An instance of capacity `c` right after power-on reset, with no host move made (10_state R47, 70 R212). -/
def State.resetWith (c : Nat) : State :=
  { cp := 0, enc := Enc.reset, dec := Dec.powerOn c, err := Err.clear, stream := [], imem := [], log := [] }

/-- The machine right after reset. Its capacity is log entry 1's choice; `State.resetWith` is the same for every C. -/
def State.reset : State := State.resetWith Config.resetCap

end Sys2Proof.Machine
end

