-- ==== Sys2Proof/Machine/Flags.lean ====
section
/-! DEFINITION. The one-bit state of the core (10_state R44), the status words computed from it (R27, R31), the wrapping
event counters (R28, R29, R37 to R40), and LOCK_DEC (41_decoder R131). The core has no condition codes. -/

namespace Sys2Proof.Machine

/-- Every event counter increments by 1 mod 2^32 (10_state R28, R29, R37 to R40). -/
def countUp (c : Word) : Word := c + 1#32

/-- DEC_STAT.ACCUMULATING, not stored: FILL > 7 (10_state R31, R45). -/
def Dec.accumulating (d : Dec) : Bool := decide (Config.hdr < d.fill)

/-- The value of ENC_STAT: ENC_LOCKED in bit 0 (10_state R27, 42_control R164). -/
def encStatWord (e : Enc) : Word := 0#31 ++ BitVec.ofBool e.locked

/-- The value of DEC_STAT: DEC_LOCKED, WARN_NO_CFG, ACCUMULATING in bits 0, 1, 2 (10_state R31, 42_control R164). -/
def decStatWord (d : Dec) : Word :=
  0#29 ++ BitVec.ofBool d.accumulating ++ BitVec.ofBool d.warnNoCfg ++ BitVec.ofBool d.locked

/-- LOCK_DEC (41_decoder R131): ends the construction window, with the warning when no configuration was supplied. -/
def lockDec (s : State) : State :=
  if s.dec.locked then s
  else
    { s with dec := { s.dec with
        locked := true
        warnNoCfg := if s.dec.cfg.valid then s.dec.warnNoCfg else true } }

/-- The first accepted ENC_AU ends the encoder's construction window (10_state R33, 40_encoder R110). -/
def lockEnc (s : State) : State := { s with enc := { s.enc with locked := true } }

end Sys2Proof.Machine
end

