-- ==== Sys2Proof/Machine/Operands.lean ====
section
/-! DEFINITION. The operand forms of the commands: register addresses (10_state R42, R43), register reads and writes
(42_control R161 to R164), and ranges of IMEM (20_memory R61). -/

namespace Sys2Proof.Machine

/-- The registers of 10_state R42. -/
inductive Reg where
  | encMtu | encCycle | encSsrc | encParam | encSrate | encStat | encAuCnt | encFragCnt
  | decCfg | decStat | decFill | decTs | decCap | decAuCnt | decOvfCnt | decDropCnt | decMultiCnt
  | err
  deriving DecidableEq, Repr

/-- The two functional units (00_scope R2). -/
inductive CoreUnit where
  | enc | dec
  deriving DecidableEq, Repr

/-- The access types of 10_state R42. A register of type RW-C belongs to one unit (R33). -/
inductive Access where
  | rwc (u : CoreUnit)
  | ro
  | wc
  deriving DecidableEq, Repr

/-- The registers in address order (10_state R42). -/
def Reg.all : List Reg :=
  [.encMtu, .encCycle, .encSsrc, .encParam, .encSrate, .encStat, .encAuCnt, .encFragCnt,
   .decCfg, .decStat, .decFill, .decTs, .decCap, .decAuCnt, .decOvfCnt, .decDropCnt, .decMultiCnt, .err]

/-- The address column of 10_state R42. -/
def Reg.addr : Reg → BitVec 12
  | .encMtu => 0x000#12
  | .encCycle => 0x004#12
  | .encSsrc => 0x008#12
  | .encParam => 0x00C#12
  | .encSrate => 0x010#12
  | .encStat => 0x014#12
  | .encAuCnt => 0x018#12
  | .encFragCnt => 0x01C#12
  | .decCfg => 0x020#12
  | .decStat => 0x024#12
  | .decFill => 0x028#12
  | .decTs => 0x02C#12
  | .decCap => 0x030#12
  | .decAuCnt => 0x034#12
  | .decOvfCnt => 0x038#12
  | .decDropCnt => 0x03C#12
  | .decMultiCnt => 0x040#12
  | .err => 0x044#12

/-- The register an ADDR selects, if any: every ADDR not in the table selects none (10_state R43). -/
def Reg.ofAddr (a : BitVec 12) : Option Reg := Reg.all.find? (fun r => r.addr == a)

/-- The access column of 10_state R42. -/
def Reg.access : Reg → Access
  | .encMtu => .rwc .enc
  | .encCycle => .rwc .enc
  | .encSsrc => .rwc .enc
  | .encParam => .rwc .enc
  | .encSrate => .rwc .enc
  | .encStat => .ro
  | .encAuCnt => .ro
  | .encFragCnt => .ro
  | .decCfg => .rwc .dec
  | .decStat => .ro
  | .decFill => .ro
  | .decTs => .ro
  | .decCap => .ro
  | .decAuCnt => .ro
  | .decOvfCnt => .ro
  | .decDropCnt => .ro
  | .decMultiCnt => .ro
  | .err => .wc

/-- WMASK (42_control R163); a register that is not RW-C has no writable bit. -/
def Reg.wmask : Reg → Word
  | .encMtu => 0x0000FFFF#32
  | .encCycle => 0xFFFFFFFF#32
  | .encSsrc => 0xFFFFFFFF#32
  | .encParam => 0x0000FFFF#32
  | .encSrate => 0xFFFFFFFF#32
  | .decCfg => 0x000003FF#32
  | .encStat => 0#32
  | .encAuCnt => 0#32
  | .encFragCnt => 0#32
  | .decStat => 0#32
  | .decFill => 0#32
  | .decTs => 0#32
  | .decCap => 0#32
  | .decAuCnt => 0#32
  | .decOvfCnt => 0#32
  | .decDropCnt => 0#32
  | .decMultiCnt => 0#32
  | .err => 0#32

/-- The lock bit of a unit (10_state R33). -/
def State.unitLocked (s : State) : CoreUnit → Bool
  | .enc => s.enc.locked
  | .dec => s.dec.locked

/-- The fields of a DEC_CFG word (10_state R30). -/
def DecCfg.ofWord (w : Word) : DecCfg :=
  { valid := w.getLsbD 0, profile := w.extractLsb' 1 2, sfIndex := w.extractLsb' 3 4, channels := w.extractLsb' 7 3 }

/-- The DEC_CFG word of its fields, reserved bits 0 (10_state R30, 30_encoding R95). -/
def DecCfg.word (c : DecCfg) : Word := 0#22 ++ c.channels ++ c.sfIndex ++ c.profile ++ BitVec.ofBool c.valid

/-- RVAL: a register's 32-bit value with every reserved bit 0 (42_control R164). FILL and C are shown in 14 bits (log
entry 10). -/
def regRead (s : State) : Reg → Word
  | .encMtu => 0#16 ++ s.enc.mtu
  | .encCycle => s.enc.cycle
  | .encSsrc => s.enc.ssrc
  | .encParam => 0#16 ++ s.enc.interleaved ++ s.enc.pt
  | .encSrate => s.enc.srate
  | .encStat => encStatWord s.enc
  | .encAuCnt => s.enc.auCnt
  | .encFragCnt => s.enc.fragCnt
  | .decCfg => s.dec.cfg.word
  | .decStat => decStatWord s.dec
  | .decFill => 0#18 ++ BitVec.ofNat 14 s.dec.fill
  | .decTs => s.dec.ts
  | .decCap => 0#18 ++ BitVec.ofNat 14 s.dec.cap
  | .decAuCnt => s.dec.auCnt
  | .decOvfCnt => s.dec.ovfCnt
  | .decDropCnt => s.dec.dropCnt
  | .decMultiCnt => s.dec.multiCnt
  | .err => 0#16 ++ s.err.op ++ s.err.code

/-- Stores a value into a configuration register's fields (42_control R161, last line); a register WRREG cannot store to
keeps its value. -/
def regWrite (s : State) (r : Reg) (v : Word) : State :=
  match r with
  | .encMtu => { s with enc := { s.enc with mtu := v.extractLsb' 0 16 } }
  | .encCycle => { s with enc := { s.enc with cycle := v } }
  | .encSsrc => { s with enc := { s.enc with ssrc := v } }
  | .encParam => { s with enc := { s.enc with pt := v.extractLsb' 0 8, interleaved := v.extractLsb' 8 8 } }
  | .encSrate => { s with enc := { s.enc with srate := v } }
  | .decCfg => { s with dec := { s.dec with cfg := DecCfg.ofWord v } }
  | .encStat => s
  | .encAuCnt => s
  | .encFragCnt => s
  | .decStat => s
  | .decFill => s
  | .decTs => s
  | .decCap => s
  | .decAuCnt => s
  | .decOvfCnt => s
  | .decDropCnt => s
  | .decMultiCnt => s
  | .err => s

/-- BASE + SIZE lies in IMEM; a sum of exactly 2^32 does (20_memory R61, 60_exceptions R180 BAD_RANGE). -/
def rangeFits (base size : Word) : Bool := decide (base.toNat + size.toNat ≤ Config.imemSize)

/-- u16be: two bytes as a big-endian 16-bit value (00_scope R12). -/
def u16be (b0 b1 : Byte) : Nat := b0.toNat * 256 + b1.toNat

end Sys2Proof.Machine
end

