-- ==== Sys2Proof/Machine/Ops.lean ====
section
/-! DEFINITION. The named operations the commands are written from: IMEM (20_memory R60, R69), the output log (R62 to
R65), the error entry (60_exceptions R180, R183), the accumulator and its operations OBTAIN, FINALIZE, APPEND_CHUNK
(41_decoder R137 to R139), the header blocks (30_encoding R92, 41_decoder R141), the unit resets (70 R210, R211), and the
command port (30_encoding R80). -/

namespace Sys2Proof.Machine

/-! ### IMEM -/

/-- The canonical form: addresses strictly rising and inside IMEM, no entry equal to what an unlisted address reads. -/
abbrev Memory.wf (m : Memory) : Prop :=
  m.Pairwise (fun c d => c.1 < d.1) ∧ ∀ c ∈ m, c.1 < Config.imemSize ∧ c.2 ≠ Config.imemUnwritten

/-- The byte of IMEM at an address (20_memory R60). -/
def Memory.byteAt : Memory → Nat → Byte
  | [], _ => Config.imemUnwritten
  | (x, y) :: m, a => if x = a then y else Memory.byteAt m a

/-- The memory with one byte set: the host's write (20_memory R60). Keeps the canonical form. -/
def Memory.set : Memory → Nat → Byte → Memory
  | [], a, b => if b = Config.imemUnwritten then [] else [(a, b)]
  | (x, y) :: m, a, b =>
    if a < x then (if b = Config.imemUnwritten then (x, y) :: m else (a, b) :: (x, y) :: m)
    else if a = x then (if b = Config.imemUnwritten then m else (a, b) :: m)
    else (x, y) :: Memory.set m a b

/-- MemRead(addr, n): the n bytes at addr .. addr+n-1 (00_scope R13, 20_memory R69). -/
def memRead (s : State) (addr n : Nat) : List Byte := (List.range n).map (fun k => s.imem.byteAt (addr + k))

/-! ### The output log -/

/-- emit: appends one event to the output log (20_memory R62). DEDUCED: always accepted (R78; log entry 16). -/
def emitEvent (s : State) (e : Event) : State := { s with log := s.log ++ [e] }

/-- What the collaborator sees beside a FRAG event (20_memory R63). -/
def besideOf (e : Enc) : Beside := { ssrc := e.ssrc, pt := e.pt, interleaved := e.interleaved, srate := e.srate }

/-- emit FRAG(payload, marker, ts), with len = len(payload) (20_memory R63). -/
def emitFrag (s : State) (payload : List Byte) (marker : Bool) (ts : Word) : State :=
  emitEvent s (.frag { payload := payload, len := payload.length, marker := marker, ts := ts } (besideOf s.enc))

/-- emit RESP(w) (20_memory R65). -/
def emitResp (s : State) (w : Word) : State := emitEvent s (.resp w)

/-! ### The command pointer and the error entry -/

/-- cp <- cp + k (00_scope R13, 10_state R21). -/
def advance (s : State) (k : Nat) : State := { s with cp := s.cp + k }

/-- The command errors (60_exceptions R180). -/
inductive ErrCode where
  | illegalOpcode | reservedBits | badReg | readOnly | cfgLocked | encCfgInvalid | encBadPrefix | encAuTooLong | badRange
  deriving DecidableEq, Repr

/-- The code column of 60_exceptions R180. -/
def ErrCode.code : ErrCode → BitVec 8
  | .illegalOpcode => 0x01#8
  | .reservedBits => 0x02#8
  | .badReg => 0x03#8
  | .readOnly => 0x04#8
  | .cfgLocked => 0x05#8
  | .encCfgInvalid => 0x06#8
  | .encBadPrefix => 0x07#8
  | .encAuTooLong => 0x08#8
  | .badRange => 0x09#8

/-- The error entry, `raise Err(code)` of a command whose CW[31:24] is `op` (60_exceptions R183): ERR takes the code and
the opcode byte, `cp` advances by the command's length, and nothing else changes. -/
def takeError (s : State) (e : ErrCode) (op : BitVec 8) : State :=
  advance { s with err := { code := e.code, op := op } } (commandWords op)

/-- The same for a defined opcode, as the answer of a meaning. -/
def raiseErr (s : State) (e : ErrCode) (op : Op) : Result := .next (takeError s e op.code)

/-! ### The header blocks -/

/-- AUHDR(L) = [0x00, 0x10, L >> 5, (L & 0x1F) << 3] (30_encoding R92). -/
def auHdr (l : Nat) : List Byte :=
  [0x00#8, 0x10#8, BitVec.ofNat 8 (l >>> 5), BitVec.ofNat 8 ((l &&& 0x1F) <<< 3)]

/-- ADTS(pr, sf, ch, len), the 7 bytes b0 to b6 of 41_decoder R141. PRESUMED by the spec itself (general knowledge; log
entry 11). unsafe. -/
def adts (pr : BitVec 2) (sf : BitVec 4) (ch : BitVec 3) (len : Nat) : List Byte :=
  [0xFF#8,
   0xF1#8,
   BitVec.ofNat 8 ((pr.toNat <<< 6) ||| (sf.toNat <<< 2) ||| (ch.toNat >>> 2)),
   BitVec.ofNat 8 (((ch.toNat &&& 3) <<< 6) ||| (len >>> 11)),
   BitVec.ofNat 8 ((len >>> 3) &&& 0xFF),
   BitVec.ofNat 8 (((len &&& 7) <<< 5) ||| 0x1F),
   0xFC#8]

/-- The ADTS header of a configuration and a frame length. -/
def DecCfg.adts (c : DecCfg) (len : Nat) : List Byte := Machine.adts c.profile c.sfIndex c.channels len

/-! ### The accumulator -/

/-- AccRead(pos, n) (00_scope R13, 10_state R35). -/
def accRead (acc : List Byte) (pos n : Nat) : List Byte := (acc.drop pos).take n

/-- AccWrite(pos, s) (00_scope R13, 10_state R35). -/
def accWrite (acc : List Byte) (pos : Nat) (bs : List Byte) : List Byte :=
  acc.take pos ++ bs ++ acc.drop (pos + bs.length)

/-- OBTAIN (41_decoder R139): FILL 7, ACC_TS 0, the header region pre-filled when a configuration is known and zero
otherwise. ACC[7..C) keeps what it held. -/
def obtainAcc (d : Dec) : Dec :=
  { d with
    fill := Config.hdr
    ts := 0
    acc := accWrite d.acc 0 (if d.cfg.valid then d.cfg.adts Config.hdr else List.replicate Config.hdr 0x00#8) }

/-- The accumulator FINALIZE emits from: the header written over positions 0 to 6 when VALID = 1 (41_decoder R138,
R142). -/
def finalAcc (d : Dec) : List Byte := if d.cfg.valid then accWrite d.acc 0 (d.cfg.adts d.fill) else d.acc

/-- The AU event FINALIZE emits (41_decoder R138, 20_memory R64). -/
def finalAu (d : Dec) : Au := { bytes := accRead (finalAcc d) 0 d.fill, len := d.fill, ts := d.ts }

/-- FINALIZE (41_decoder R138): nothing when FILL = 7; else header, AU event, DEC_AU_CNT, OBTAIN. -/
def finalize (s : State) : State :=
  if s.dec.fill = Config.hdr then s
  else
    let s1 := emitEvent s (.au (finalAu s.dec))
    { s1 with dec := obtainAcc { s.dec with acc := finalAcc s.dec, auCnt := countUp s.dec.auCnt } }

/-- APPEND_CHUNK, the overflow test of step 3 (41_decoder R137): count the overflow, emit before appending. -/
def overflowFlush (s : State) : State :=
  finalize { s with dec := { s.dec with ovfCnt := countUp s.dec.ovfCnt } }

/-- APPEND_CHUNK, the copy of step 4 (41_decoder R137). -/
def copyChunk (s : State) (bs : List Byte) (t : Word) : State :=
  { s with dec := { s.dec with acc := accWrite s.dec.acc s.dec.fill bs, fill := s.dec.fill + bs.length, ts := t } }

/-- APPEND_CHUNK(s, t) (41_decoder R137). -/
def appendChunk (s : State) (bs : List Byte) (t : Word) : State :=
  copyChunk (if s.dec.fill + bs.length > s.dec.cap then overflowFlush s else s) bs t

/-! ### The unit resets -/

/-- ENC_RESET (70_reset_and_hazards R210). -/
def encReset (s : State) : State := { s with enc := Enc.reset }

/-- DEC_RESET (70_reset_and_hazards R211): configuration, status and counters 0, then OBTAIN; no AU event; C kept. -/
def decReset (s : State) : State :=
  { s with dec := obtainAcc { s.dec with
      cfg := { valid := false, profile := 0, sfIndex := 0, channels := 0 }
      locked := false
      warnNoCfg := false
      auCnt := 0
      ovfCnt := 0
      dropCnt := 0
      multiCnt := 0 } }

/-! ### The command port -/

/-- The words of the stream the core has not consumed (30_encoding R80, 10_state R21). -/
def pendingWords (s : State) : List Word := s.stream.drop s.cp

/-- What a step does when the port's words give no instruction: no word, or not all words, and the core does nothing
(30_encoding R100, 70 R220); an opcode outside the map takes the error entry ILLEGAL_OPCODE (30_encoding R97). DEDUCED (log entry 5). safe. -/
def stepRejected (s : State) : DecodeReject → Result
  | .noCommand => .fault .endOfStream
  | .incomplete _ => .fault .commandPending
  | .illegalOpcode op => .next (takeError s .illegalOpcode op)

/-- The stream with `ws` standing at `cp`, where the next command is read. -/
def placeWords (s : State) (ws : List Word) : State :=
  { s with stream :=
      s.stream.take s.cp ++ List.replicate (s.cp - s.stream.length) 0#32 ++ ws ++ s.stream.drop (s.cp + ws.length) }

end Sys2Proof.Machine
end

