-- ==== Sys2Proof/Machine/Control.lean ====
section
/-! DEFINITION. The control commands RESET, WRREG, RDREG (42_control). -/

namespace Sys2Proof.Machine

/-- The unit resets a RESET selects, encoder first (42_control R160). -/
def resetUnits (enc dec : Bool) (s : State) : State :=
  let s1 := if enc then encReset s else s
  if dec then decReset s1 else s1

/-- RESET (42_control R160). -/
def execReset (rsv : BitVec 22) (enc dec : Bool) (s : State) : Result :=
  if rsv ≠ 0 then raiseErr s .reservedBits .reset
  else .next (advance (resetUnits enc dec s) 1)

/-- WRREG (42_control R161). -/
def execWrreg (rsv : BitVec 12) (addr : BitVec 12) (data : Word) (s : State) : Result :=
  if rsv ≠ 0 then raiseErr s .reservedBits .wrreg
  else
    match Reg.ofAddr addr with
    | none => raiseErr s .badReg .wrreg
    | some r =>
      match r.access with
      | .wc => .next (advance { s with err := Err.clear } 2)
      | .ro => raiseErr s .readOnly .wrreg
      | .rwc u =>
        if s.unitLocked u then raiseErr s .cfgLocked .wrreg
        else .next (advance (regWrite s r (data &&& r.wmask)) 2)

/-- RDREG (42_control R162): one RESP event always, 0 on error. -/
def execRdreg (rsv : BitVec 12) (addr : BitVec 12) (s : State) : Result :=
  if rsv ≠ 0 then raiseErr (emitResp s 0#32) .reservedBits .rdreg
  else
    match Reg.ofAddr addr with
    | none => raiseErr (emitResp s 0#32) .badReg .rdreg
    | some r => .next (advance (emitResp s (regRead s r)) 1)

end Sys2Proof.Machine
end

