-- ==== Sys2Proof/Machine/Decoder.lean ====
section
/-! DEFINITION. The decoder unit's commands DEC_PKT (41_decoder R134 to R140) and DEC_FLUSH (R143). -/

namespace Sys2Proof.Machine

/-- A malformed fragment is dropped whole and counted (41_decoder R135). -/
def dropFragment (s : State) : State :=
  { s with dec := { s.dec with dropCnt := countUp s.dec.dropCnt } }

/-- A fragment with more than one AU-header is counted (41_decoder R136). -/
def noteMultiAu (count : Nat) (s : State) : State :=
  if count > 1 then { s with dec := { s.dec with multiCnt := countUp s.dec.multiCnt } } else s

/-- The `repeat` loop of 41_decoder R134 (R140): chunks of at most C - 7 bytes, until `k = avail`. The first argument
bounds the passes; `avail + 1` passes always suffice when C >= 8 (R149; log entry 8). -/
def chunkLoop (q avail : Nat) (t : Word) : Nat → Nat → State → State
  | 0, _, s => s
  | fuel + 1, k, s =>
    let n := min (avail - k) (s.dec.cap - Config.hdr)
    let s1 := appendChunk s (memRead s (q + k) n) t
    if k + n = avail then s1 else chunkLoop q avail t fuel (k + n) s1

/-- count = v >> 4 of the AU-headers-length read at the fragment's first byte (30_encoding R93, 41_decoder R134). -/
def auHeaderCount (s : State) (p : Nat) : Nat := u16be (s.imem.byteAt p) (s.imem.byteAt (p + 1)) >>> 4

/-- region = 2 + 2 * count: the AU-header region the decoder skips (30_encoding R93). -/
def auHeaderRegion (count : Nat) : Nat := 2 + 2 * count

/-- DEC_PKT from 'accepted from here on' (41_decoder R134), for a fragment at `base + offset .. base + size`. -/
def decodeAccepted (m : Bool) (base size offset : Nat) (t : Word) (s : State) : State :=
  let s1 := lockDec s
  if offset > size ∨ size - offset < 2 then dropFragment s1
  else
    let p := base + offset
    let plen := size - offset
    let count := auHeaderCount s p
    let region := auHeaderRegion count
    if region > plen then dropFragment s1
    else
      let avail := plen - region
      let s2 := chunkLoop (p + region) avail t (avail + 1) 0 (noteMultiAu count s1)
      if m then finalize s2 else s2

/-- DEC_PKT (41_decoder R134); the order of its checks is that of 60_exceptions R182. -/
def execDecPkt (rsv : BitVec 23) (m : Bool) (base size offset ts : Word) (s : State) : Result :=
  if rsv ≠ 0 then raiseErr s .reservedBits .decPkt
  else if rangeFits base size = false then raiseErr s .badRange .decPkt
  else .next (advance (decodeAccepted m base.toNat size.toNat offset.toNat ts s) 5)

/-- DEC_FLUSH (41_decoder R143). -/
def execDecFlush (rsv : BitVec 24) (s : State) : Result :=
  if rsv ≠ 0 then raiseErr s .reservedBits .decFlush
  else .next (advance (finalize (lockDec s)) 1)

end Sys2Proof.Machine
end

