-- ==== Sys2Proof/Machine/Encoder.lean ====
section
/-! DEFINITION. The encoder unit's command ENC_AU (40_encoder R110 to R116). -/

namespace Sys2Proof.Machine

/-- One pass of the loop of 40_encoder R110: emit a fragment of `n` bytes from `src + cur`, count it. -/
def emitSlice (hdr : List Byte) (ts : Word) (src cur n : Nat) (m : Bool) (s : State) : State :=
  let s1 := emitFrag s (hdr ++ memRead s (src + cur) n) m ts
  { s1 with enc := { s1.enc with fragCnt := countUp s1.enc.fragCnt } }

/-- The loop `while rem > 0` of 40_encoder R110 (R113, R114). The first argument bounds the passes; `rem` passes always
suffice, since `cap >= 1` (R121; log entry 8). -/
def splitLoop (hdr : List Byte) (ts : Word) (cap src : Nat) : Nat → Nat → Nat → State → State
  | 0, _, _, s => s
  | fuel + 1, cur, rem, s =>
    if rem = 0 then s
    else
      let n := if rem ≤ cap then rem else cap
      splitLoop hdr ts cap src fuel (cur + n) (rem - n) (emitSlice hdr ts src cur n (decide (rem ≤ cap)) s)

/-- ENC_AU from 'accepted from here on' (40_encoder R110), for an access unit of `l` bytes at `src`. -/
def encodeAccepted (src l : Nat) (dts : Word) (s : State) : State :=
  let s1 := lockEnc s
  let s2 := { s1 with enc := { s1.enc with auCnt := countUp s1.enc.auCnt } }
  splitLoop (auHdr l) (dts % s.enc.cycle) (s.enc.mtu.toNat - Config.overhead) src l 0 l s2

/-- ENC_AU (40_encoder R110); the order of its checks is that of 60_exceptions R182. -/
def execEncAu (rsv : BitVec 24) (base size pfx dts : Word) (s : State) : Result :=
  if rsv ≠ 0 then raiseErr s .reservedBits .encAu
  else if rangeFits base size = false then raiseErr s .badRange .encAu
  else if pfx.toNat > size.toNat then raiseErr s .encBadPrefix .encAu
  else if s.enc.mtu.toNat < Config.mtuMin ∨ s.enc.cycle = 0 then raiseErr s .encCfgInvalid .encAu
  else if size.toNat - pfx.toNat > Config.auMax then raiseErr s .encAuTooLong .encAu
  else .next (advance (encodeAccepted (base.toNat + pfx.toNat) (size.toNat - pfx.toNat) dts s) 5)

end Sys2Proof.Machine
end

