-- ==== Sys2Proof/Machine/Dispatch.lean ====
section
/-! DEFINITION. What each instruction does: one arm a constructor, each one call of its meaning. -/

namespace Sys2Proof.Machine

def exec (i : Instr) (s : State) : Host.Outcome State Fault Refusal :=
  match i with
  | .reset rsv enc dec => Sys2Proof.Machine.execReset rsv enc dec s
  | .wrreg rsv addr data => Sys2Proof.Machine.execWrreg rsv addr data s
  | .rdreg rsv addr => Sys2Proof.Machine.execRdreg rsv addr s
  | .encAu rsv base size pfx dts => Sys2Proof.Machine.execEncAu rsv base size pfx dts s
  | .decPkt rsv m base size offset ts => Sys2Proof.Machine.execDecPkt rsv m base size offset ts s
  | .decFlush rsv => Sys2Proof.Machine.execDecFlush rsv s

end Sys2Proof.Machine
end

