-- ==== Sys2Proof/Machine/Step.lean ====
section
/-! DEFINITION. One step: one command, executed to completion (00_scope R18, 20_memory R75; log entry 15). -/

namespace Sys2Proof.Machine

/-- Reads the command at `cp` and executes it. The meanings advance `cp` themselves (10_state R21), so a step adds
nothing around `exec`. -/
def step (s : State) : Host.Outcome State Fault Refusal :=
  match decode (pendingWords s) with
  | .ok i => exec i s
  | .error r => stepRejected s r

/-- `s` with the instruction whose bits are `w` (numbered as opcode_table.json numbers them) standing at `cp` in the
command stream, where `step` reads next: the host's presenting it on the port (log entry 4). -/
def State.withFetchWord (s : State) (nbits w : Nat) : State := placeWords s (tableWords nbits w)

end Sys2Proof.Machine
end

