-- ==== Sys2Proof/Machine/Assembler.lean ====
section
/-! DEFINITION. The assembler of 30_encoding R101 and its pseudo-instructions (R102): from a line of text to command
words. Outside the step: the core sees words only. -/

namespace Sys2Proof.Machine

/-- REG: a register name of 10_state R42 or a number 0 to 0xFFF (30_encoding R101). -/
inductive AsmReg where
  | name (r : Reg)
  | number (n : BitVec 12)
  deriving DecidableEq, Repr

/-- The lines of 30_encoding R101, then the pseudo-instructions of R102. -/
inductive AsmLine where
  | reset (enc dec : Bool)
  | wrreg (r : AsmReg) (data : Word)
  | rdreg (r : AsmReg)
  | encAu (base size pfx dts : Word)
  | decPkt (m : Bool) (base size offset ts : Word)
  | decFlush
  | raw (ws : List Word)
  | encCfg (mtu cycle : Word)
  | encRtp (ssrc pt il srate : Word)
  | decCfg (profile sf ch : Word)
  | decNocfg
  | clrerr
  | resetAll
  deriving DecidableEq, Repr

/-- The ADDR of a REG operand. -/
def AsmReg.addr : AsmReg → BitVec 12
  | .name r => r.addr
  | .number n => n

/-- The expansions of 30_encoding R102; a line that is no pseudo-instruction is its own expansion. -/
def AsmLine.expand : AsmLine → List AsmLine
  | .encCfg mtu cycle => [.wrreg (.name .encMtu) mtu, .wrreg (.name .encCycle) cycle]
  | .encRtp ssrc pt il srate =>
    [.wrreg (.name .encSsrc) ssrc, .wrreg (.name .encParam) (pt ||| (il <<< 8)), .wrreg (.name .encSrate) srate]
  | .decCfg profile sf ch => [.wrreg (.name .decCfg) (1#32 ||| (profile <<< 1) ||| (sf <<< 3) ||| (ch <<< 7))]
  | .decNocfg => [.wrreg (.name .decCfg) 0#32]
  | .clrerr => [.wrreg (.name .err) 0#32]
  | .resetAll => [.reset true true]
  | .reset enc dec => [.reset enc dec]
  | .wrreg r data => [.wrreg r data]
  | .rdreg r => [.rdreg r]
  | .encAu base size pfx dts => [.encAu base size pfx dts]
  | .decPkt m base size offset ts => [.decPkt m base size offset ts]
  | .decFlush => [.decFlush]
  | .raw ws => [.raw ws]

/-- The words column of 30_encoding R101; a pseudo-instruction has none of its own. -/
def AsmLine.ownWords : AsmLine → List Word
  | .reset enc dec => [0x01000000#32 ||| (BitVec.ofBool dec ++ BitVec.ofBool enc).setWidth 32]
  | .wrreg r data => [0x02000000#32 ||| r.addr.setWidth 32, data]
  | .rdreg r => [0x03000000#32 ||| r.addr.setWidth 32]
  | .encAu base size pfx dts => [0x10000000#32, base, size, pfx, dts]
  | .decPkt m base size offset ts => [0x20000000#32 ||| (BitVec.ofBool m).setWidth 32, base, size, offset, ts]
  | .decFlush => [0x21000000#32]
  | .raw ws => ws
  | .encCfg _ _ => []
  | .encRtp _ _ _ _ => []
  | .decCfg _ _ _ => []
  | .decNocfg => []
  | .clrerr => []
  | .resetAll => []

/-- The words a line stands for. -/
def AsmLine.words (l : AsmLine) : List Word := l.expand.flatMap AsmLine.ownWords

/-! ### The text of a line (log entry 14 says what of the text's form the spec leaves open) -/

/-- The name column of 10_state R42. -/
def Reg.text : Reg → String
  | .encMtu => "ENC_MTU"
  | .encCycle => "ENC_CYCLE"
  | .encSsrc => "ENC_SSRC"
  | .encParam => "ENC_PARAM"
  | .encSrate => "ENC_SRATE"
  | .encStat => "ENC_STAT"
  | .encAuCnt => "ENC_AU_CNT"
  | .encFragCnt => "ENC_FRAG_CNT"
  | .decCfg => "DEC_CFG"
  | .decStat => "DEC_STAT"
  | .decFill => "DEC_FILL"
  | .decTs => "DEC_TS"
  | .decCap => "DEC_CAP"
  | .decAuCnt => "DEC_AU_CNT"
  | .decOvfCnt => "DEC_OVF_CNT"
  | .decDropCnt => "DEC_DROP_CNT"
  | .decMultiCnt => "DEC_MULTI_CNT"
  | .err => "ERR"

/-- Blanks between the parts of a line. -/
def isBlank (c : Char) : Bool := c == ' ' || c == '\t' || c == '\r'

/-- Text without the blanks around it. -/
def trimBlanks (cs : List Char) : List Char :=
  ((cs.dropWhile isBlank).reverse.dropWhile isBlank).reverse

/-- The parts of a text between separators. -/
def splitAtChar (sep : Char) : List Char → List (List Char)
  | [] => [[]]
  | c :: cs =>
    if c == sep then [] :: splitAtChar sep cs
    else
      match splitAtChar sep cs with
      | [] => [[c]]
      | p :: ps => (c :: p) :: ps

/-- The value of a digit in base 10 or 16. -/
def digitValue (base : Nat) (c : Char) : Option Nat :=
  let v :=
    if '0' ≤ c ∧ c ≤ '9' then c.toNat - '0'.toNat
    else if 'a' ≤ c ∧ c ≤ 'f' then c.toNat - 'a'.toNat + 10
    else if 'A' ≤ c ∧ c ≤ 'F' then c.toNat - 'A'.toNat + 10
    else base
  if v < base then some v else none

/-- The value of a run of digits. -/
def digitsValue (base : Nat) : Nat → List Char → Option Nat
  | acc, [] => some acc
  | acc, c :: cs =>
    match digitValue base c with
    | none => none
    | some v => digitsValue base (acc * base + v) cs

/-- A number, decimal or 0x hexadecimal (30_encoding R101). -/
def parseNat : List Char → Option Nat
  | [] => none
  | '0' :: 'x' :: c :: cs => digitsValue 16 0 (c :: cs)
  | c :: cs => digitsValue 10 0 (c :: cs)

/-- A number that is a 32-bit word. -/
def parseWord (cs : List Char) : Option Word :=
  match parseNat cs with
  | none => none
  | some n => if n < 2 ^ 32 then some (BitVec.ofNat 32 n) else none

/-- Numbers that are all 32-bit words. -/
def parseWords : List (List Char) → Option (List Word)
  | [] => some []
  | p :: ps =>
    match parseWord p, parseWords ps with
    | some w, some ws => some (w :: ws)
    | _, _ => none

/-- A REG operand: a register's name, or a number 0 to 0xFFF. -/
def parseReg (cs : List Char) : Option AsmReg :=
  match Reg.all.find? (fun r => r.text.toList == cs) with
  | some r => some (.name r)
  | none =>
    match parseNat cs with
    | none => none
    | some n => if n < 2 ^ 12 then some (.number (BitVec.ofNat 12 n)) else none

/-- A line of a mnemonic and its operands (30_encoding R101, R102). -/
def parseCommand (mn : List Char) (ops : List (List Char)) : Option AsmLine :=
  if mn == "reset".toList then
    match ops with
    | [a] =>
      if a == "none".toList then some (.reset false false)
      else if a == "enc".toList then some (.reset true false)
      else if a == "dec".toList then some (.reset false true)
      else none
    | [a, b] => if a == "enc".toList && b == "dec".toList then some (.reset true true) else none
    | _ => none
  else if mn == "wrreg".toList then
    match ops with
    | [r, d] =>
      match parseReg r, parseWord d with
      | some r, some d => some (.wrreg r d)
      | _, _ => none
    | _ => none
  else if mn == "rdreg".toList then
    match ops with
    | [r] => (parseReg r).map .rdreg
    | _ => none
  else if mn == ".word".toList then
    match parseWords ops with
    | some (w :: ws) => some (.raw (w :: ws))
    | _ => none
  else
    match parseWords ops with
    | none => none
    | some [] =>
      if mn == "dec.flush".toList then some .decFlush
      else if mn == "dec.nocfg".toList then some .decNocfg
      else if mn == "clrerr".toList then some .clrerr
      else if mn == "reset.all".toList then some .resetAll
      else none
    | some [a, b] => if mn == "enc.cfg".toList then some (.encCfg a b) else none
    | some [a, b, c] => if mn == "dec.cfg".toList then some (.decCfg a b c) else none
    | some [a, b, c, d] =>
      if mn == "enc.au".toList then some (.encAu a b c d)
      else if mn == "dec.pkt".toList then some (.decPkt false a b c d)
      else if mn == "dec.pkt.m".toList then some (.decPkt true a b c d)
      else if mn == "enc.rtp".toList then some (.encRtp a b c d)
      else none
    | some _ => none

/-- The words of one line of text: none of an empty or comment line (`;` starts a comment, 30_encoding R101). -/
def assembleLine (line : List Char) : Option (List Word) :=
  let text := trimBlanks (line.takeWhile (fun c => c != ';'))
  match text with
  | [] => some []
  | _ =>
    let mn := text.takeWhile (fun c => !isBlank c)
    let rest := trimBlanks (text.dropWhile (fun c => !isBlank c))
    let ops :=
      match rest with
      | [] => []
      | _ => (splitAtChar ',' rest).map trimBlanks
    (parseCommand mn ops).map AsmLine.words

/-- The words of a list of lines, in order; none if a line is not of the syntax. -/
def assembleLines : List (List Char) → Option (List Word)
  | [] => some []
  | l :: ls =>
    match assembleLine l, assembleLines ls with
    | some ws, some vs => some (ws ++ vs)
    | _, _ => none

/-- The command stream of a text, one command per line (30_encoding R101). -/
def assemble (text : String) : Option (List Word) := assembleLines (splitAtChar '\n' text.toList)

end Sys2Proof.Machine
end

