-- ==== Sys2Proof/Machine/HostMoves.lean ====
section
/-! DEFINITION. What the host does between commands (00_scope R18, 70_reset_and_hazards R216), and power-on reset
(R212). None of these is part of a step. -/

namespace Sys2Proof.Machine

/-- The host writes one byte of IMEM (20_memory R60). -/
def hostWrite (a : Word) (b : Byte) (s : State) : State := { s with imem := s.imem.set a.toNat b }

/-- The host writes bytes from an address upward; a byte that would lie past IMEM's end is not written, since there is no
such address (20_memory R60). -/
def hostStore (a : Nat) : List Byte → State → State
  | [], s => s
  | b :: bs, s => hostStore (a + 1) bs (if a < Config.imemSize then hostWrite (BitVec.ofNat 32 a) b s else s)

/-- The host presents more words on the command port (30_encoding R80). -/
def hostAppend (ws : List Word) (s : State) : State := { s with stream := s.stream ++ ws }

/-- Power-on reset of an instance (70_reset_and_hazards R212): ENC_RESET, DEC_RESET, ERR and `cp` 0, IMEM and the log
untouched. `cp` counts words from this reset (10_state R21), so the host's stream begins anew (log entry 12). -/
def powerOn (s : State) : State :=
  { decReset (encReset s) with err := Err.clear, cp := 0, stream := [] }

end Sys2Proof.Machine
end

