-- ==== Sys2Proof/Machine/System.lean ====
section
/-! DEFINITION. Several instances of the core (60_exceptions R192): N_INST of them, each with all the state of 10_state,
sharing none of it (R49; log entry 13). -/

namespace Sys2Proof.Machine

/-- A system of `cores.length` = N_INST instances (00_scope R9). -/
structure System where
  cores : List State
  deriving DecidableEq, Repr

/-- N_INST instances of capacity `c` right after power-on (60_exceptions R192). -/
def System.powerOn (n c : Nat) : System := { cores := List.replicate n (State.resetWith c) }

/-- Instance `n` executes one command; an instance that has none to execute, or does not exist, leaves the system as it
is. -/
def System.stepAt (y : System) (n : Nat) : System :=
  match y.cores[n]? with
  | none => y
  | some s =>
    match step s with
    | .next t => { cores := y.cores.set n t }
    | .fault _ => y
    | .refused _ => y

/-- The host writes one byte of an IMEM that all instances read (20_memory R79). -/
def System.hostWriteShared (a : Word) (b : Byte) (y : System) : System := { cores := y.cores.map (hostWrite a b) }

/-- The host presents words on the port of instance `n` (60_exceptions R192: each instance has its own port). -/
def System.hostAppendAt (n : Nat) (ws : List Word) (y : System) : System :=
  { cores := y.cores.modify n (hostAppend ws) }

end Sys2Proof.Machine
end

