-- ==== Sys2Proof/Safety.lean ====
section
/-! DEFINITION. The terms claims are made in: the states a core can be in between commands, and the invariant that holds
in all of them. -/

namespace Sys2Proof.Machine

/-- What an event of the log looks like when the instance's capacity is `c`: a fragment carries the 4-byte block and 1 to
8191 bytes (20_memory R63, 30_encoding R90), an access unit more than its header and at most `c` bytes (R64). -/
def Event.wf (c : Nat) : Event → Prop
  | .frag f _ => f.len = f.payload.length ∧ 5 ≤ f.len ∧ f.len ≤ 8195 ∧ f.payload.take 2 = [0x00#8, 0x10#8]
  | .au a => a.len = a.bytes.length ∧ 8 ≤ a.len ∧ a.len ≤ c
  | .resp _ => True

/-- What is true of a core between commands. -/
structure State.Inv (s : State) : Prop where
  /-- 8 <= C <= 8191 (00_scope R9). -/
  capLegal : Config.capMin ≤ s.dec.cap ∧ s.dec.cap ≤ Config.capMax
  /-- 7 <= FILL <= C (10_state R46). -/
  fillBounds : Config.hdr ≤ s.dec.fill ∧ s.dec.fill ≤ s.dec.cap
  /-- ACC has C bytes (10_state R35). -/
  accLength : s.dec.acc.length = s.dec.cap
  /-- `cp` is an index into the stream, or its end (10_state R21). -/
  cpBound : s.cp ≤ s.stream.length
  /-- IMEM keeps its canonical form. -/
  imemWf : s.imem.wf
  /-- WARN_NO_CFG is set exactly while the decoder is locked without a configuration (10_state R31). -/
  warnExact : s.dec.warnNoCfg = (s.dec.locked && !s.dec.cfg.valid)
  /-- Without a configuration the header region is zero (41_decoder R142). -/
  zeroHeader : s.dec.cfg.valid = false → s.dec.acc.take Config.hdr = List.replicate Config.hdr 0x00#8
  /-- A decoder in its construction window is as its reset left it but for DEC_CFG (10_state R33). -/
  decFresh : s.dec.locked = false →
    s.dec.fill = Config.hdr ∧ s.dec.ts = 0 ∧ s.dec.acc.take Config.hdr = List.replicate Config.hdr 0x00#8 ∧
    s.dec.auCnt = 0 ∧ s.dec.ovfCnt = 0 ∧ s.dec.dropCnt = 0 ∧ s.dec.multiCnt = 0
  /-- An encoder in its construction window has encoded nothing (10_state R33). -/
  encFresh : s.enc.locked = false → s.enc.auCnt = 0 ∧ s.enc.fragCnt = 0
  /-- A locked encoder has a legal configuration (40_encoder R110). -/
  encLegal : s.enc.locked = true → Config.mtuMin ≤ s.enc.mtu.toNat ∧ s.enc.cycle ≠ 0
  /-- ERR holds a code of 60_exceptions R180, and no opcode without a code. -/
  errLegal : s.err.code.toNat ≤ 9 ∧ (s.err.code = 0 → s.err.op = 0)
  /-- Every event of the log has the form of its kind. -/
  logWf : ∀ e ∈ s.log, e.wf s.dec.cap

/-! ### The vocabulary of claims -/

/-- The payload the accumulator holds: positions 7 to FILL-1 (10_state R35). -/
def Dec.held (d : Dec) : List Byte := (d.acc.take d.fill).drop Config.hdr

/-- The first 7 bytes of an access unit of `len` bytes: the ADTS header when a configuration was supplied, zeros when
not (41_decoder R138, R142). -/
def headerBytes (c : DecCfg) (len : Nat) : List Byte :=
  if c.valid then c.adts len else List.replicate Config.hdr 0x00#8

/-- The events a command appended, from the states before and after it (20_memory R62). -/
def newEvents (s t : State) : List Event := t.log.drop s.log.length

/-- The fragment of a FRAG event. -/
def Event.frag? : Event → Option Frag
  | .frag f _ => some f
  | .au _ => none
  | .resp _ => none

/-- The access unit of an AU event. -/
def Event.au? : Event → Option Au
  | .frag _ _ => none
  | .au a => some a
  | .resp _ => none

/-- The chunks of 41_decoder R140: J = max(1, ceil(len / w)) pieces of `w` bytes, the last one holding the rest. -/
def chunksOf (w : Nat) (bs : List Byte) : List (List Byte) :=
  (List.range (max 1 ((bs.length + w - 1) / w))).map (fun j => (bs.drop (j * w)).take w)

/-- The operands and registers with which an ENC_AU is accepted (40_encoder R110). -/
structure EncAccepts (s : State) (base size pfx : Word) : Prop where
  range : base.toNat + size.toNat ≤ 2 ^ 32
  pfxLe : pfx.toNat ≤ size.toNat
  mtu : 21 ≤ s.enc.mtu.toNat
  cycle : s.enc.cycle ≠ 0
  short : size.toNat - pfx.toNat ≤ 8191

/-- The AU-header count of a fragment that begins at `p`: the big-endian 16-bit value there, divided by 16 (30_encoding
R93). -/
def countAt (s : State) (p : Nat) : Nat := ((s.imem.byteAt p).toNat * 256 + (s.imem.byteAt (p + 1)).toNat) / 16

/-- A DEC_PKT's fragment that is not malformed (41_decoder R135), in range (R134). -/
structure FragmentWellFormed (s : State) (base size offset : Word) : Prop where
  range : base.toNat + size.toNat ≤ 2 ^ 32
  offsetLe : offset.toNat ≤ size.toNat
  twoBytes : 2 ≤ size.toNat - offset.toNat
  region : 2 + 2 * countAt s (base.toNat + offset.toNat) ≤ size.toNat - offset.toNat

/-- The access-unit data of such a fragment: its bytes after the AU-header region (30_encoding R93). -/
def fragmentData (s : State) (base size offset : Word) : List Byte :=
  memRead s (base.toNat + offset.toNat + (2 + 2 * countAt s (base.toNat + offset.toNat)))
    (size.toNat - offset.toNat - (2 + 2 * countAt s (base.toNat + offset.toNat)))

/-- The states between commands that power-on, the host's moves and the core's steps lead to, for any legal capacity
(00_scope R18, 70_reset_and_hazards R216). -/
inductive Reachable : State → Prop
  | reset (c : Nat) (h : Config.capMin ≤ c ∧ c ≤ Config.capMax) : Reachable (State.resetWith c)
  | hostWrite {s : State} (a : Word) (b : Byte) : Reachable s → Reachable (Machine.hostWrite a b s)
  | hostAppend {s : State} (ws : List Word) : Reachable s → Reachable (Machine.hostAppend ws s)
  | powerOn {s : State} : Reachable s → Reachable (Machine.powerOn s)
  | core {s t : State} : Reachable s → step s = .next t → Reachable t

end Sys2Proof.Machine
end

