-- ==== Sys2Proof/WellFormed.lean ====
section
/-! DEFINITION. Well-formed instructions: the reserved bits of the command word are 0 (30_encoding R81). -/

namespace Sys2Proof

/-- A command whose format's reserved bits are all 0 (30_encoding R81, R82). Any other raises RESERVED_BITS (R97). -/
def Instr.wellFormed : Instr → Bool
  | .reset rsv _ _ => rsv == 0
  | .wrreg rsv _ _ => rsv == 0
  | .rdreg rsv _ => rsv == 0
  | .encAu rsv _ _ _ _ => rsv == 0
  | .decPkt rsv _ _ _ _ _ => rsv == 0
  | .decFlush rsv => rsv == 0

end Sys2Proof
end

