-- ==== Sys2Proof/Certificates/Slice0/Obligations.lean ====
section
/-! DEFINITION. The statements for the provers. Each docstring names the rules of spec/ it is about. Statements about the
decoder hold for every capacity C of 8 to 8191 (`State.Inv`). -/

namespace Sys2Proof.Claim

open Sys2Proof.Machine

/-- Fragment `i` of an access unit of `l` bytes at `src`, cut at `cap` bytes, as 40_encoder R111 to R115 and 30_encoding
R90 say: the block `00 10`, AU-size and AU-index, then data bytes [i*cap, min((i+1)*cap, l)). -/
def fragmentOf (s : State) (src l cap i : Nat) (dts : Word) : Frag :=
  { payload :=
      [0x00#8, 0x10#8, BitVec.ofNat 8 (l / 32), BitVec.ofNat 8 (l % 32 * 8)] ++
        (List.range (min ((i + 1) * cap) l - i * cap)).map (fun k => s.imem.byteAt (src + i * cap + k))
    len := 4 + (min ((i + 1) * cap) l - i * cap)
    marker := decide (i + 1 = (l + cap - 1) / cap)
    ts := BitVec.ofNat 32 (dts.toNat % s.enc.cycle.toNat) }

/-- The accumulator as 41_decoder R137 and R138 speak of it: the payload since the last OBTAIN, its timestamp, the access
units emitted so far and the overflows counted so far. -/
structure Held where
  payload : List Byte
  ts : Word
  aus : List Au
  overflows : Nat

/-- The access unit a flush of `h` emits (41_decoder R138, R142). -/
def Held.au (c : DecCfg) (h : Held) : Au :=
  { bytes := headerBytes c (7 + h.payload.length) ++ h.payload, len := 7 + h.payload.length, ts := h.ts }

/-- Steps 3 and 4 for one chunk (41_decoder R137): on overflow emit first and begin afresh. -/
def Held.append (c : DecCfg) (cap : Nat) (t : Word) (h : Held) (chunk : List Byte) : Held :=
  if 7 + h.payload.length + chunk.length > cap then
    { payload := chunk, ts := t, aus := h.aus ++ [h.au c], overflows := h.overflows + 1 }
  else { h with payload := h.payload ++ chunk, ts := t }

/-- Step 5 (41_decoder R134, R138, R144): a marker flushes what is held, if anything is. -/
def Held.mark (c : DecCfg) (m : Bool) (h : Held) : Held :=
  if m = true ∧ h.payload ≠ [] then { h with payload := [], ts := 0, aus := h.aus ++ [h.au c] } else h

/-- The decoder unit after LOCK_DEC (41_decoder R131). -/
def lockedDec (d : Dec) : Dec :=
  if d.locked then d else { d with locked := true, warnNoCfg := d.warnNoCfg || !d.cfg.valid }

/-- What has become of the accumulator and the counters after an accepted DEC_PKT. -/
def packetHeld (s : State) (m : Bool) (base size offset ts : Word) : Held :=
  ((chunksOf (s.dec.cap - 7) (fragmentData s base size offset)).foldl (Held.append s.dec.cfg s.dec.cap ts)
    { payload := s.dec.held, ts := s.dec.ts, aus := [], overflows := 0 }).mark s.dec.cfg m

/-- The command error of 60_exceptions R180 that holds first in the order of R182, if any does, from the numbers of the
rules. -/
def expectedError (i : Instr) (s : State) : Option (BitVec 8) :=
  if i.wellFormed = false then some 0x02#8
  else
    match i with
    | .reset _ _ _ => none
    | .wrreg _ addr _ =>
      if addr.toNat % 4 ≠ 0 ∨ addr.toNat > 0x044 then some 0x03#8
      else if addr.toNat = 0x044 then none
      else if addr.toNat ∉ [0x000, 0x004, 0x008, 0x00C, 0x010, 0x020] then some 0x04#8
      else if (if addr.toNat = 0x020 then s.dec.locked else s.enc.locked) = true then some 0x05#8
      else none
    | .rdreg _ addr => if addr.toNat % 4 ≠ 0 ∨ addr.toNat > 0x044 then some 0x03#8 else none
    | .encAu _ base size pfx _ =>
      if base.toNat + size.toNat > 2 ^ 32 then some 0x09#8
      else if pfx.toNat > size.toNat then some 0x07#8
      else if s.enc.mtu.toNat < 21 ∨ s.enc.cycle.toNat = 0 then some 0x06#8
      else if size.toNat - pfx.toNat > 8191 then some 0x08#8
      else none
    | .decPkt _ _ base size _ _ => if base.toNat + size.toNat > 2 ^ 32 then some 0x09#8 else none
    | .decFlush _ => none

/-- The opcode byte of a command (30_encoding R89). -/
def opByte : Instr → BitVec 8
  | .reset _ _ _ => 0x01#8
  | .wrreg _ _ _ => 0x02#8
  | .rdreg _ _ => 0x03#8
  | .encAu _ _ _ _ _ => 0x10#8
  | .decPkt _ _ _ _ _ _ => 0x20#8
  | .decFlush _ => 0x21#8

/-- The length in words of a command with opcode byte `op` (30_encoding R88). -/
def lengthOf (op : Nat) : Nat := if op = 0x02 then 2 else if op = 0x10 ∨ op = 0x20 then 5 else 1

/-- The six configuration registers of a unit, as they are read (10_state R33). -/
def encConfig (s : State) : List Word := [Reg.encMtu, .encCycle, .encSsrc, .encParam, .encSrate].map (regRead s)

/-- Two states that differ at most in the bytes of ACC at positions FILL to C-1. -/
def SameButStale (s t : State) : Prop :=
  s.dec.acc.take s.dec.fill = t.dec.acc.take s.dec.fill ∧ s.dec.acc.length = t.dec.acc.length ∧
    t = { s with dec := { s.dec with acc := t.dec.acc } }

/-- A fragment on its way to a decoder: the FRAG, and the operands of the DEC_PKT it is given with (41_decoder R147). The
host may have written IMEM before it: `imem` is what IMEM then holds. -/
structure Delivery where
  frag : Frag
  imem : Memory
  base : Word
  size : Word
  offset : Word
  ts : Word

/-- The delivery is as 41_decoder R147 asks: the fragment's bytes stand in IMEM at BASE + OFFSET, SIZE - OFFSET is its
length, and the range is one IMEM has. -/
def Delivery.carries (d : Delivery) (s : State) : Prop :=
  d.base.toNat + d.size.toNat ≤ 2 ^ 32 ∧ d.offset.toNat ≤ d.size.toNat ∧
    d.size.toNat - d.offset.toNat = d.frag.len ∧
    memRead { s with imem := d.imem } (d.base.toNat + d.offset.toNat) d.frag.len = d.frag.payload

/-- The deliveries, one DEC_PKT each, in order; the marker is the fragment's. -/
def deliver : List Delivery → State → Result
  | [], s => .next s
  | d :: ds, s =>
    match exec (.decPkt 0 d.frag.marker d.base d.size d.offset d.ts) { s with imem := d.imem } with
    | .next t => deliver ds t
    | .fault r => .fault r
    | .refused r => .refused r

end Sys2Proof.Claim

open Sys2Proof Sys2Proof.Machine Sys2Proof.Claim

/-! ### Encoding -/

/-- 30_encoding R81 to R89, R99: every instruction, with its reserved field and operands at any value and any words after
it, is read back from its words. -/
def Obligations.DecodeReadsEncode : Prop :=
  ∀ (i : Instr) (rest : List Word), decode (encode i ++ rest) = .ok i

/-- 30_encoding R99: what the decoder reads is what stands on the port, word for word, so no two word sequences that
differ within their commands decode alike. -/
def Obligations.EncodeReadsDecode : Prop :=
  ∀ (ws : List Word) (i : Instr), decode ws = .ok i → ∃ rest, ws = encode i ++ rest

/-- Words of spec/95_test_vectors.md (P1, P2, P4, T15) decode to the commands they stand for there. -/
def Obligations.SpecWordsDecode : Prop :=
  decode [0x01000003#32] = .ok (.reset 0 true true) ∧
  decode [0x0200000C#32, 0x261#32] = .ok (.wrreg 0 0x00C#12 0x261#32) ∧
  decode [0x03000028#32] = .ok (.rdreg 0 0x028#12) ∧
  decode [0x10000000#32, 0x1000#32, 2003#32, 3#32, 0xFFFFFFFF#32] = .ok (.encAu 0 0x1000#32 2003#32 3#32 0xFFFFFFFF#32) ∧
  decode [0x20000001#32, 0x3000#32, 636#32, 12#32, 91000#32] = .ok (.decPkt 0 true 0x3000#32 636#32 12#32 91000#32) ∧
  decode [0x21000000#32] = .ok (.decFlush 0) ∧
  decode [0x02100000#32, 5#32] = .ok (.wrreg 0x100#12 0#12 5#32) ∧
  decode [0xFF123456#32] = .error (.illegalOpcode 0xFF#8)

/-! ### The step -/

/-- 00_scope R18, 30_encoding R80: when the words at `cp` decode to `i`, the step is `exec i` at that state, and it adds
nothing around it (the meanings advance `cp`). -/
def Obligations.StepRunsDecodedInstruction : Prop :=
  ∀ (s : State) (i : Instr), decode (s.stream.drop s.cp) = .ok i → step s = exec i s

/-- 30_encoding R100: with fewer than `k` words left (R88) the command is not executed; with none left (70 R213, R220)
there is no command. That a step without a next state is the fault `commandPending` in the first case and `endOfStream`
in the second is log entry 5 (DEDUCED). -/
def Obligations.StepWaitsForAllWords : Prop :=
  ∀ (s : State),
    (s.stream.length ≤ s.cp → step s = .fault .endOfStream) ∧
    (∀ cw, s.stream[s.cp]? = some cw → s.stream.length < s.cp + lengthOf (cw.toNat / 2 ^ 24) →
      step s = .fault .commandPending)

/-- 30_encoding R88, 10_state R21: whatever a step does, error or not, it consumes the `k` words OP alone gives. -/
def Obligations.StepConsumesCommandLength : Prop :=
  ∀ (s t : State) (cw : Word), s.stream[s.cp]? = some cw → step s = .next t →
    t.cp = s.cp + lengthOf (cw.toNat / 2 ^ 24)

/-- 20_memory R60, R62, R76, 10_state R36: a step only appends to the log, and changes neither IMEM, nor the command
stream, nor C. -/
def Obligations.StepAppendsToLogOnly : Prop :=
  ∀ (s t : State), step s = .next t →
    (∃ ev, t.log = s.log ++ ev) ∧ t.imem = s.imem ∧ t.stream = s.stream ∧ t.dec.cap = s.dec.cap

/-- 60_exceptions R180 to R183, 30_encoding R97: every command raises exactly the error that holds first in the order of
R182, and then only ERR and `cp` change and nothing is emitted, but for RDREG's RESP(0); a command for which none holds
completes, and leaves ERR unless it is the WRREG that clears it; an opcode outside the map raises ILLEGAL_OPCODE and
occupies one word. -/
def Obligations.ErrorsArePreciseAndPrioritised : Prop :=
  (∀ (i : Instr) (s : State) (c : BitVec 8), expectedError i s = some c →
    exec i s = .next { s with
      cp := s.cp + lengthOf (opByte i).toNat
      err := { code := c, op := opByte i }
      log := if opByte i = 0x03#8 then s.log ++ [.resp 0] else s.log }) ∧
  (∀ (i : Instr) (s : State), expectedError i s = none →
    ∃ t, exec i s = .next t ∧
      t.err = (match i with
        | .wrreg _ addr _ => if addr.toNat = 0x044 then { code := 0, op := 0 } else s.err
        | _ => s.err)) ∧
  (∀ (s : State) (cw : Word), s.stream[s.cp]? = some cw →
    cw.toNat / 2 ^ 24 ∉ [0x01, 0x02, 0x03, 0x10, 0x20, 0x21] →
    step s = .next { s with cp := s.cp + 1, err := { code := 0x01#8, op := BitVec.ofNat 8 (cw.toNat / 2 ^ 24) } })

/-! ### The control commands -/

/-- 42_control R160, 70 R210, R211: what RESET does, in full; a reserved bit raises RESERVED_BITS. -/
def Obligations.ResetCommandResult : Prop :=
  ∀ (rsv : BitVec 22) (enc dec : Bool) (s : State),
    exec (.reset 0 enc dec) s = .next { s with
      cp := s.cp + 1
      enc := if enc then
          { mtu := 0, cycle := 0, ssrc := 0, pt := 0, interleaved := 0, srate := 0, locked := false, auCnt := 0,
            fragCnt := 0 }
        else s.enc
      dec := if dec then
          { cfg := { valid := false, profile := 0, sfIndex := 0, channels := 0 }
            locked := false, warnNoCfg := false, fill := 7, ts := 0
            acc := [0x00#8, 0x00#8, 0x00#8, 0x00#8, 0x00#8, 0x00#8, 0x00#8] ++ s.dec.acc.drop 7
            cap := s.dec.cap, auCnt := 0, ovfCnt := 0, dropCnt := 0, multiCnt := 0 }
        else s.dec } ∧
    (rsv ≠ 0 → exec (.reset rsv enc dec) s = .next { s with cp := s.cp + 1, err := { code := 0x02#8, op := 0x01#8 } })

/-- 42_control R161, R163: the result of a WRREG that succeeds, register by register: the written fields, nothing else. -/
def Obligations.WrregStoresConfiguration : Prop :=
  ∀ (s : State) (data : Word),
    (s.enc.locked = false →
      exec (.wrreg 0 0x000#12 data) s = .next { s with cp := s.cp + 2, enc := { s.enc with mtu := BitVec.ofNat 16 data.toNat } } ∧
      exec (.wrreg 0 0x004#12 data) s = .next { s with cp := s.cp + 2, enc := { s.enc with cycle := data } } ∧
      exec (.wrreg 0 0x008#12 data) s = .next { s with cp := s.cp + 2, enc := { s.enc with ssrc := data } } ∧
      exec (.wrreg 0 0x00C#12 data) s = .next { s with
        cp := s.cp + 2
        enc := { s.enc with pt := BitVec.ofNat 8 data.toNat, interleaved := BitVec.ofNat 8 (data.toNat / 2 ^ 8) } } ∧
      exec (.wrreg 0 0x010#12 data) s = .next { s with cp := s.cp + 2, enc := { s.enc with srate := data } }) ∧
    (s.dec.locked = false →
      exec (.wrreg 0 0x020#12 data) s = .next { s with
        cp := s.cp + 2
        dec := { s.dec with cfg :=
          { valid := data.getLsbD 0
            profile := BitVec.ofNat 2 (data.toNat / 2)
            sfIndex := BitVec.ofNat 4 (data.toNat / 2 ^ 3)
            channels := BitVec.ofNat 3 (data.toNat / 2 ^ 7) } } }) ∧
    exec (.wrreg 0 0x044#12 data) s = .next { s with cp := s.cp + 2, err := { code := 0, op := 0 } }

/-- 42_control R161, R163, R164, 30_encoding R98: a configuration register written in its construction window then reads
DATA with the bits outside its write mask 0, and every other register reads as before. -/
def Obligations.RegisterReadsMaskedWrite : Prop :=
  ∀ (s : State) (r : Reg) (mask data : Word),
    (r, mask) ∈ [(Reg.encMtu, 0x0000FFFF#32), (Reg.encCycle, 0xFFFFFFFF#32), (Reg.encSsrc, 0xFFFFFFFF#32),
      (Reg.encParam, 0x0000FFFF#32), (Reg.encSrate, 0xFFFFFFFF#32), (Reg.decCfg, 0x000003FF#32)] →
    (if r = .decCfg then s.dec.locked else s.enc.locked) = false →
    ∃ t, exec (.wrreg 0 r.addr data) s = .next t ∧ regRead t r = data &&& mask ∧
      ∀ r', r' ≠ r → regRead t r' = regRead s r'

/-- 10_state R42, R43: the register map: exactly the multiples of 4 up to 0x044 select a register, each its own. -/
def Obligations.RegisterMapIsExact : Prop :=
  (∀ a : BitVec 12, Reg.ofAddr a = none ↔ (a.toNat % 4 ≠ 0 ∨ a.toNat > 0x044)) ∧
  (∀ (a : BitVec 12) (r : Reg), Reg.ofAddr a = some r ↔ a = r.addr) ∧
  (Reg.all.map (fun r => r.addr.toNat) =
    [0x000, 0x004, 0x008, 0x00C, 0x010, 0x014, 0x018, 0x01C, 0x020, 0x024, 0x028, 0x02C, 0x030, 0x034, 0x038, 0x03C,
      0x040, 0x044])

/-- 42_control R162: the result of RDREG, register by register with the values of R164 as numbers: one RESP event and
the advance of `cp`; on an error RESP(0), then the error entry. In states where FILL or C exceeds its register's 14 bits,
which no reachable state does, the value is reduced: log entry 10 (DEDUCED). -/
def Obligations.RdregAnswersOnce : Prop :=
  ∀ (s : State) (rsv addr : BitVec 12),
    (∀ (a : BitVec 12) (v : Nat),
      (a.toNat, v) ∈
        [(0x000, s.enc.mtu.toNat), (0x004, s.enc.cycle.toNat), (0x008, s.enc.ssrc.toNat),
          (0x00C, s.enc.pt.toNat + s.enc.interleaved.toNat * 2 ^ 8), (0x010, s.enc.srate.toNat),
          (0x014, s.enc.locked.toNat), (0x018, s.enc.auCnt.toNat), (0x01C, s.enc.fragCnt.toNat),
          (0x020, s.dec.cfg.valid.toNat + s.dec.cfg.profile.toNat * 2 + s.dec.cfg.sfIndex.toNat * 2 ^ 3 +
            s.dec.cfg.channels.toNat * 2 ^ 7),
          (0x024, s.dec.locked.toNat + s.dec.warnNoCfg.toNat * 2 + (if 7 < s.dec.fill then 4 else 0)),
          (0x028, s.dec.fill % 2 ^ 14), (0x02C, s.dec.ts.toNat), (0x030, s.dec.cap % 2 ^ 14),
          (0x034, s.dec.auCnt.toNat), (0x038, s.dec.ovfCnt.toNat), (0x03C, s.dec.dropCnt.toNat),
          (0x040, s.dec.multiCnt.toNat), (0x044, s.err.code.toNat + s.err.op.toNat * 2 ^ 8)] →
      exec (.rdreg 0 a) s = .next { s with cp := s.cp + 1, log := s.log ++ [.resp (BitVec.ofNat 32 v)] }) ∧
    (rsv ≠ 0 → exec (.rdreg rsv addr) s = .next { s with
      cp := s.cp + 1, err := { code := 0x02#8, op := 0x03#8 }, log := s.log ++ [.resp 0] }) ∧
    ((addr.toNat % 4 ≠ 0 ∨ addr.toNat > 0x044) → exec (.rdreg 0 addr) s = .next { s with
      cp := s.cp + 1, err := { code := 0x03#8, op := 0x03#8 }, log := s.log ++ [.resp 0] })

/-! ### The encoder -/

/-- 40_encoder R110 to R116 (lock and counters: R110): an accepted ENC_AU of L = SIZE - PREFIX bytes completes, emits exactly the fragments R113
gives, ceil(L / cap) of them and none when L = 0, in order, locks the encoder, counts one access unit and each fragment,
and changes nothing else. The collaborator's side values (20_memory R63) stand in the same entry of the log by the model's
choice (log entry 7). -/
def Obligations.EncAuEmitsTheFragments : Prop :=
  ∀ (s : State) (base size pfx dts : Word), EncAccepts s base size pfx →
    exec (.encAu 0 base size pfx dts) s = .next { s with
      cp := s.cp + 5
      enc := { s.enc with
        locked := true
        auCnt := s.enc.auCnt + 1
        fragCnt := s.enc.fragCnt +
          BitVec.ofNat 32 ((size.toNat - pfx.toNat + (s.enc.mtu.toNat - 20) - 1) / (s.enc.mtu.toNat - 20)) }
      log := s.log ++
        (List.range ((size.toNat - pfx.toNat + (s.enc.mtu.toNat - 20) - 1) / (s.enc.mtu.toNat - 20))).map
          (fun i => .frag
            (fragmentOf s (base.toNat + pfx.toNat) (size.toNat - pfx.toNat) (s.enc.mtu.toNat - 20) i dts)
            { ssrc := s.enc.ssrc, pt := s.enc.pt, interleaved := s.enc.interleaved, srate := s.enc.srate }) }

/-- 40_encoder section 3 (what R117, R118 and R119 derive): the fragments of one accepted ENC_AU carry the access unit's
bytes, none dropped, repeated or reordered; each carries 1 to cap bytes and fits the MTU; the last alone has the marker. -/
def Obligations.FragmentsCoverTheAccessUnit : Prop :=
  ∀ (s : State) (base size pfx dts : Word), EncAccepts s base size pfx →
    ∃ (t : State) (fs : List Frag), exec (.encAu 0 base size pfx dts) s = .next t ∧
      (newEvents s t).filterMap Event.frag? = fs ∧
      (fs.map (fun f => f.payload.drop 4)).flatten = memRead s (base.toNat + pfx.toNat) (size.toNat - pfx.toNat) ∧
      (∀ f ∈ fs, f.len = f.payload.length ∧ 5 ≤ f.len ∧ f.len ≤ 4 + (s.enc.mtu.toNat - 20) ∧
        f.len ≤ s.enc.mtu.toNat - 16) ∧
      (∀ (k : Nat) (f : Frag), fs[k]? = some f → (f.marker = true ↔ k + 1 = fs.length))

/-- 40_encoder section 3 (R120): what an ENC_AU emits depends on its operands, the access unit's bytes, ENC_MTU and
ENC_CYCLE alone: two states that agree on these, whatever else they hold, get the same fragments. -/
def Obligations.EncAuIsPure : Prop :=
  ∀ (s1 s2 t1 t2 : State) (rsv : BitVec 24) (base size pfx dts : Word),
    s1.enc.mtu = s2.enc.mtu → s1.enc.cycle = s2.enc.cycle →
    (∀ a, base.toNat + pfx.toNat ≤ a → a < base.toNat + size.toNat → s1.imem.byteAt a = s2.imem.byteAt a) →
    exec (.encAu rsv base size pfx dts) s1 = .next t1 → exec (.encAu rsv base size pfx dts) s2 = .next t2 →
    (newEvents s1 t1).filterMap Event.frag? = (newEvents s2 t2).filterMap Event.frag?

/-- 30_encoding R90, R91: the AU-header block: AU-headers-length 16, and read big-endian an AU-size of L and an AU-index
of 0. -/
def Obligations.AuHeaderHoldsTheLength : Prop :=
  ∀ l : Nat, l ≤ 8191 → ∃ b2 b3 : Byte, auHdr l = [0x00#8, 0x10#8, b2, b3] ∧
    (b2.toNat * 256 + b3.toNat) / 8 = l ∧ (b2.toNat * 256 + b3.toNat) % 8 = 0

/-! ### The decoder -/

/-- 41_decoder R134, R136 to R140: an accepted DEC_PKT whose fragment is well formed completes and is, in every
observable, the chunk-by-chunk append of R137 and R140 followed by the marker's flush: the payload held, ACC_TS, the
access units emitted, every counter, the header region, and everything else unchanged. Overflow, several chunks and a
marker in the same packet included. -/
def Obligations.DecPktAppendsChunkByChunk : Prop :=
  ∀ (s : State) (m : Bool) (base size offset ts : Word), s.Inv → FragmentWellFormed s base size offset →
    ∃ t, exec (.decPkt 0 m base size offset ts) s = .next t ∧
      t.dec.held = (packetHeld s m base size offset ts).payload ∧
      t.dec.fill = 7 + (packetHeld s m base size offset ts).payload.length ∧
      t.dec.ts = (packetHeld s m base size offset ts).ts ∧
      t.log = s.log ++ (packetHeld s m base size offset ts).aus.map Event.au ∧
      t.dec.acc.take 7 =
        (if (packetHeld s m base size offset ts).aus = [] then s.dec.acc.take 7 else headerBytes s.dec.cfg 7) ∧
      t.dec.auCnt = s.dec.auCnt + BitVec.ofNat 32 (packetHeld s m base size offset ts).aus.length ∧
      t.dec.ovfCnt = s.dec.ovfCnt + BitVec.ofNat 32 (packetHeld s m base size offset ts).overflows ∧
      t.dec.multiCnt = (if 1 < countAt s (base.toNat + offset.toNat) then s.dec.multiCnt + 1 else s.dec.multiCnt) ∧
      t.dec.dropCnt = s.dec.dropCnt ∧ t.dec.locked = true ∧ t.dec.warnNoCfg = (lockedDec s.dec).warnNoCfg ∧
      t.dec.cfg = s.dec.cfg ∧ t.dec.cap = s.dec.cap ∧ t.dec.acc.length = s.dec.cap ∧
      t.cp = s.cp + 5 ∧ t.enc = s.enc ∧ t.err = s.err ∧ t.stream = s.stream ∧ t.imem = s.imem

/-- 41_decoder R135: a malformed fragment is dropped whole: the lock and DEC_DROP_CNT change and nothing else does, the
marker included. -/
def Obligations.DecPktDropsMalformed : Prop :=
  ∀ (s : State) (m : Bool) (base size offset ts : Word), base.toNat + size.toNat ≤ 2 ^ 32 →
    (offset.toNat > size.toNat ∨ size.toNat - offset.toNat < 2 ∨
      2 + 2 * countAt s (base.toNat + offset.toNat) > size.toNat - offset.toNat) →
    exec (.decPkt 0 m base size offset ts) s = .next { s with
      cp := s.cp + 5
      dec := { lockedDec s.dec with dropCnt := s.dec.dropCnt + 1 } }

/-- 41_decoder R140: every byte of an accepted fragment's data reaches some AU event or the accumulator, in order: what
was held, then the data, is what the emitted access units carry behind their headers, then what is held after. -/
def Obligations.DecPktConservesBytes : Prop :=
  ∀ (s : State) (m : Bool) (base size offset ts : Word), s.Inv → FragmentWellFormed s base size offset →
    ∃ t, exec (.decPkt 0 m base size offset ts) s = .next t ∧
      ((newEvents s t).filterMap Event.au?).flatMap (fun a => a.bytes.drop 7) ++ t.dec.held =
        s.dec.held ++ fragmentData s base size offset

/-- 41_decoder section 1 (R132): one DEC_PKT emits at most J + 1 access units, J the number of chunks, and at most two
when its data fits one chunk. -/
def Obligations.DecPktEmissionBound : Prop :=
  ∀ (s t : State) (rsv : BitVec 23) (m : Bool) (base size offset ts : Word), s.Inv →
    exec (.decPkt rsv m base size offset ts) s = .next t →
    (newEvents s t).length ≤ (chunksOf (s.dec.cap - 7) (fragmentData s base size offset)).length + 1 ∧
    ((fragmentData s base size offset).length ≤ s.dec.cap - 7 → (newEvents s t).length ≤ 2)

/-- 41_decoder R143: DEC_FLUSH in full: the lock, and when FILL > 7 one access unit, DEC_AU_CNT and a fresh accumulator;
a reserved bit raises RESERVED_BITS. -/
def Obligations.DecFlushResult : Prop :=
  ∀ (s : State) (rsv : BitVec 24), s.Inv →
    (s.dec.fill = 7 → exec (.decFlush 0) s = .next { s with cp := s.cp + 1, dec := lockedDec s.dec }) ∧
    (7 < s.dec.fill → exec (.decFlush 0) s = .next { s with
      cp := s.cp + 1
      dec := { lockedDec s.dec with
        fill := 7
        ts := 0
        acc := headerBytes s.dec.cfg 7 ++ s.dec.acc.drop 7
        auCnt := s.dec.auCnt + 1 }
      log := s.log ++
        [.au { bytes := headerBytes s.dec.cfg s.dec.fill ++ s.dec.held, len := s.dec.fill, ts := s.dec.ts }] }) ∧
    (rsv ≠ 0 → exec (.decFlush rsv) s = .next { s with cp := s.cp + 1, err := { code := 0x02#8, op := 0x21#8 } })

/-- 41_decoder R137: APPEND_CHUNK of a chunk that fits a fresh accumulator: with room it copies at FILL, advances FILL
and takes the timestamp; without room it counts an overflow and emits what is held first, and the chunk then stands alone
in the accumulator. FILL stays within C either way. -/
def Obligations.AppendChunkResult : Prop :=
  ∀ (s : State) (bs : List Byte) (t : Word), s.Inv → bs.length ≤ s.dec.cap - 7 →
    (s.dec.fill + bs.length ≤ s.dec.cap →
      (appendChunk s bs t).dec.held = s.dec.held ++ bs ∧ (appendChunk s bs t).dec.fill = s.dec.fill + bs.length ∧
      (appendChunk s bs t).dec.ts = t ∧ (appendChunk s bs t).log = s.log ∧
      (appendChunk s bs t).dec.ovfCnt = s.dec.ovfCnt ∧ (appendChunk s bs t).dec.auCnt = s.dec.auCnt) ∧
    (s.dec.fill + bs.length > s.dec.cap →
      (appendChunk s bs t).dec.held = bs ∧ (appendChunk s bs t).dec.fill = 7 + bs.length ∧
      (appendChunk s bs t).dec.ts = t ∧
      (appendChunk s bs t).log = s.log ++
        [.au { bytes := headerBytes s.dec.cfg s.dec.fill ++ s.dec.held, len := s.dec.fill, ts := s.dec.ts }] ∧
      (appendChunk s bs t).dec.ovfCnt = s.dec.ovfCnt + 1 ∧ (appendChunk s bs t).dec.auCnt = s.dec.auCnt + 1)

/-- 41_decoder section 3, 30_encoding section 2 (the ADTS layout, which the spec supplies from general knowledge; log entry 11): the
seven bytes, read as one 56-bit value with the first byte highest, are the fields of the layout table side by side. -/
def Obligations.AdtsBytesAreTheLayout : Prop :=
  ∀ (pr : BitVec 2) (sf : BitVec 4) (ch : BitVec 3) (len : BitVec 13),
    ((adts pr sf ch len.toNat).foldl (fun v b => v * 256 + b.toNat) 0) =
      (0xFFF#12 ++ 0#1 ++ 0#2 ++ 1#1 ++ pr ++ sf ++ 0#1 ++ ch ++ 0#1 ++ 0#1 ++ 0#1 ++ 0#1 ++ len ++ 0x7FF#11 ++
        0#2).toNat ∧
    (adts pr sf ch len.toNat).length = 7

/-- 41_decoder section 5 (R147): the round trip. The fragments of one accepted ENC_AU with L >= 1, each given in order to
DEC_PKT of a decoder with FILL = 7 and C >= L + 7, wherever the host puts them in IMEM and whatever timestamps they
arrive with, give exactly one access unit: the header, then the original L bytes, with the last fragment's timestamp. -/
def Obligations.RoundTripRestoresTheAccessUnit : Prop :=
  ∀ (e e' : State) (base size pfx dts : Word) (d : State) (ds : List Delivery) (last : Delivery),
    EncAccepts e base size pfx → 1 ≤ size.toNat - pfx.toNat →
    exec (.encAu 0 base size pfx dts) e = .next e' →
    d.Inv → d.dec.fill = 7 → size.toNat - pfx.toNat + 7 ≤ d.dec.cap →
    ds.map Delivery.frag = (newEvents e e').filterMap Event.frag? →
    (∀ x ∈ ds, x.carries d) → ds.getLast? = some last →
    ∃ t, deliver ds d = .next t ∧ t.dec.fill = 7 ∧
      t.log = d.log ++ [.au
        { bytes := headerBytes d.dec.cfg (size.toNat - pfx.toNat + 7) ++
            memRead e (base.toNat + pfx.toNat) (size.toNat - pfx.toNat)
          len := size.toNat - pfx.toNat + 7
          ts := last.ts }]

/-! ### The whole machine -/

/-- The invariant holds right after power-on, for every legal capacity (10_state R47; the value of C in `State.reset` is
the model's choice, log entry 1). -/
def Obligations.ResetMeetsInvariant : Prop :=
  State.reset.Inv ∧ ∀ c : Nat, 8 ≤ c → c ≤ 8191 → (State.resetWith c).Inv

/-- 10_state R46 and the other clauses of `State.Inv`: every step from every state that meets the invariant keeps it. -/
def Obligations.StepKeepsInvariant : Prop := ∀ s t : State, s.Inv → step s = .next t → t.Inv

/-- 70 R212, R216: so do the host's moves and a power-on reset in mid-run, and so does `withFetchWord`. That a power-on
reset begins a new stream is the model's choice (log entry 12), and so is `withFetchWord`, which places words at `cp` and
is no move of R216 (log entry 4). -/
def Obligations.HostMovesKeepInvariant : Prop :=
  ∀ (s : State) (a : Word) (n : Nat) (b : Byte) (bs : List Byte) (ws : List Word) (nbits w : Nat), s.Inv →
    (hostWrite a b s).Inv ∧ (hostStore n bs s).Inv ∧ (hostAppend ws s).Inv ∧ (powerOn s).Inv ∧
    (s.withFetchWord nbits w).Inv

/-- 10_state R46, 60_exceptions R180 (codes 0x0A to 0xFF are never written), 41_decoder R142: in every state between
commands of every run, whatever the host does, 7 <= FILL <= C, ERR.CODE is at most 9, and without a configuration every
access unit that could be emitted has a zero header. The runs include power-on resets in mid-run, after which the stream is
new by the model's choice (log entry 12). -/
def Obligations.EveryReachableStateIsSound : Prop :=
  ∀ s : State, Reachable s →
    7 ≤ s.dec.fill ∧ s.dec.fill ≤ s.dec.cap ∧ s.dec.cap ≤ 8191 ∧ s.err.code.toNat ≤ 9 ∧
    (s.dec.cfg.valid = false → ((finalAu s.dec).bytes).take 7 = List.replicate 7 0x00#8) ∧
    ∀ e ∈ s.log, e.wf s.dec.cap

/-- 10_state R33, R31: the construction window. A lock goes on only by an accepted data command of its unit and off only
by a reset of the unit; while it is on, the unit's configuration registers keep their values; WARN_NO_CFG goes on only
with the lock, and only when no configuration was supplied, and off only by a reset; from a state that meets the
invariant, it is never on while the decoder is unlocked. -/
def Obligations.LocksGuardConfiguration : Prop :=
  ∀ (i : Instr) (s t : State), exec i s = .next t →
    (s.enc.locked = false → (t.enc.locked = true ↔
      ∃ base size pfx dts, i = .encAu 0 base size pfx dts ∧ EncAccepts s base size pfx)) ∧
    (s.enc.locked = true →
      (t.enc.locked = true ∧ encConfig t = encConfig s) ∨ ∃ dec, i = .reset 0 true dec) ∧
    (s.dec.locked = false → (t.dec.locked = true ↔
      (i = .decFlush 0 ∨
        ∃ m base size offset ts, i = .decPkt 0 m base size offset ts ∧ base.toNat + size.toNat ≤ 2 ^ 32))) ∧
    (s.dec.locked = true →
      (t.dec.locked = true ∧ t.dec.cfg = s.dec.cfg ∧ t.dec.warnNoCfg = s.dec.warnNoCfg) ∨
        ∃ enc, i = .reset 0 enc true) ∧
    (s.dec.locked = false → t.dec.locked = true → t.dec.warnNoCfg = (s.dec.warnNoCfg || !s.dec.cfg.valid)) ∧
    (s.dec.locked = false → t.dec.locked = false →
      t.dec.warnNoCfg = s.dec.warnNoCfg ∨ ((∃ enc, i = .reset 0 enc true) ∧ t.dec.warnNoCfg = false)) ∧
    (s.Inv → t.dec.warnNoCfg = true → t.dec.locked = true)

/-- 00_scope R2, 30_encoding R80: the units share only ERR and the command port: a command of one unit leaves all the
state of the other, and a control command changes only the unit it names. -/
def Obligations.UnitsAreIndependent : Prop :=
  ∀ (i : Instr) (s t : State), exec i s = .next t →
    (opByte i ∈ [0x10#8, 0x03#8] → t.dec = s.dec) ∧
    (opByte i ∈ [0x20#8, 0x21#8, 0x03#8] → t.enc = s.enc) ∧
    (∀ rsv addr data, i = .wrreg rsv addr data →
      (addr.toNat ≠ 0x020 → t.dec = s.dec) ∧ (addr.toNat ≥ 0x014 → t.enc = s.enc)) ∧
    (∀ rsv enc dec, i = .reset rsv enc dec → (enc = false → t.enc = s.enc) ∧ (dec = false → t.dec = s.dec))

/-- 10_state R28, R29, R37: the event counters count the events: unless the command resets the unit, ENC_FRAG_CNT grows
by the FRAG events it emits and DEC_AU_CNT by the AU events, mod 2^32; ENC_AU_CNT grows by 1 exactly with an accepted
ENC_AU. -/
def Obligations.CountersCountEvents : Prop :=
  ∀ (i : Instr) (s t : State), exec i s = .next t →
    ((∀ dec, i ≠ .reset 0 true dec) →
      t.enc.fragCnt = s.enc.fragCnt + BitVec.ofNat 32 ((newEvents s t).filterMap Event.frag?).length ∧
      t.enc.auCnt = s.enc.auCnt + (if opByte i = 0x10#8 ∧ expectedError i s = none then 1 else 0)) ∧
    ((∀ enc, i ≠ .reset 0 enc true) →
      t.dec.auCnt = s.dec.auCnt + BitVec.ofNat 32 ((newEvents s t).filterMap Event.au?).length)

/-- 10_state R45: a flush is the only way back: a command after which FILL is smaller than before has emitted an access
unit, or is a reset of the decoder. -/
def Obligations.FlushIsTheOnlyWayBack : Prop :=
  ∀ (i : Instr) (s t : State), exec i s = .next t → t.dec.fill < s.dec.fill →
    (newEvents s t).filterMap Event.au? ≠ [] ∨ ∃ enc, i = .reset 0 enc true

/-- 10_state R35: no rule reads a byte of ACC at positions FILL to C-1 before writing it: two states that differ only
there take steps of the same outcome, to states that again differ at most there, with the same log and registers. -/
def Obligations.StaleAccumulatorIsUnobservable : Prop :=
  ∀ s1 s2 : State, s1.Inv → s2.Inv → SameButStale s1 s2 →
    (∀ t1, step s1 = .next t1 →
      ∃ t2, step s2 = .next t2 ∧ SameButStale t1 t2 ∧ t2.log = t1.log ∧ ∀ r, regRead t2 r = regRead t1 r) ∧
    (∀ f, step s1 = .fault f → step s2 = .fault f)

/-- 20_memory section 1: IMEM's canonical form: two memories in it that read alike at every address are equal data, so
that equal states are equal. The form, and that an unlisted byte reads 0x00, are the model's choice (log entry 3). -/
def Obligations.EqualMemoriesAreEqualData : Prop :=
  ∀ m n : Memory, m.wf → n.wf → (∀ a, a < 2 ^ 32 → m.byteAt a = n.byteAt a) → m = n

/-- 70 R212: power-on reset: both units as their resets leave them, ERR 0, `cp` 0, IMEM and the log untouched. That the
host's stream begins anew is the model's choice (log entry 12). -/
def Obligations.PowerOnResult : Prop :=
  ∀ s : State, powerOn s =
    { cp := 0
      enc := { mtu := 0, cycle := 0, ssrc := 0, pt := 0, interleaved := 0, srate := 0, locked := false, auCnt := 0,
               fragCnt := 0 }
      dec := { cfg := { valid := false, profile := 0, sfIndex := 0, channels := 0 }
               locked := false, warnNoCfg := false, fill := 7, ts := 0
               acc := List.replicate 7 0x00#8 ++ s.dec.acc.drop 7
               cap := s.dec.cap, auCnt := 0, ovfCnt := 0, dropCnt := 0, multiCnt := 0 }
      err := { code := 0, op := 0 }
      stream := []
      imem := s.imem
      log := s.log }

/-- 10_state R49, 60_exceptions R192: instances share no state: steps of two instances commute, and a step of one changes
no other. That a system is a list of states, each stepped by itself, is log entry 13 (DEDUCED). -/
def Obligations.InstancesAreIndependent : Prop :=
  ∀ (y : System) (m n : Nat), m ≠ n →
    (y.stepAt m).stepAt n = (y.stepAt n).stepAt m ∧ (y.stepAt m).cores[n]? = y.cores[n]?

/-! ### The assembler -/

/-- 30_encoding R101, R102: the words of a command line decode to the command it names, a raw line's words are taken as
they are, the words of each of the six pseudo-instructions are those of R102's expansion, for all operands, the words of
every line are those of its expansion's lines in order, and a text with every pseudo-instruction gives its words. The
expressions `PT | IL << 8` and DEC_CFG's word are R102's, on numbers, cut to the 32 bits of an operand word: for operands
in range nothing is cut, and that it is otherwise is the model's choice (log entry 14). -/
def Obligations.AssemblerGivesTheWords : Prop :=
  (∀ enc dec, decode (AsmLine.reset enc dec).words = .ok (.reset 0 enc dec)) ∧
  (∀ r data, decode (AsmLine.wrreg r data).words = .ok (.wrreg 0 r.addr data)) ∧
  (∀ r, decode (AsmLine.rdreg r).words = .ok (.rdreg 0 r.addr)) ∧
  (∀ b s p d, decode (AsmLine.encAu b s p d).words = .ok (.encAu 0 b s p d)) ∧
  (∀ m b s o t, decode (AsmLine.decPkt m b s o t).words = .ok (.decPkt 0 m b s o t)) ∧
  decode AsmLine.decFlush.words = .ok (.decFlush 0) ∧
  (∀ ws, (AsmLine.raw ws).words = ws) ∧
  (∀ mtu cycle, (AsmLine.encCfg mtu cycle).words = [0x02000000#32, mtu, 0x02000004#32, cycle]) ∧
  (∀ ssrc pt il srate, (AsmLine.encRtp ssrc pt il srate).words =
    [0x02000008#32, ssrc, 0x0200000C#32, BitVec.ofNat 32 (pt.toNat ||| (il.toNat <<< 8)), 0x02000010#32, srate]) ∧
  (∀ profile sf ch, (AsmLine.decCfg profile sf ch).words =
    [0x02000020#32, BitVec.ofNat 32 (1 ||| (profile.toNat <<< 1) ||| (sf.toNat <<< 3) ||| (ch.toNat <<< 7))]) ∧
  AsmLine.decNocfg.words = [0x02000020#32, 0#32] ∧
  AsmLine.clrerr.words = [0x02000044#32, 0#32] ∧
  AsmLine.resetAll.words = [0x01000003#32] ∧
  (∀ l : AsmLine, l.words = (l.expand.map AsmLine.words).flatten) ∧
  assemble "enc.cfg 1400, 46800000\nenc.rtp 7, 97, 2, 44100 ; parameters\ndec.cfg 1, 4, 2\ndec.nocfg\nreset.all" =
    some [0x02000000#32, 0x578#32, 0x02000004#32, 0x02CA1C80#32, 0x02000008#32, 7#32, 0x0200000C#32, 0x261#32,
      0x02000010#32, 44100#32, 0x02000020#32, 0x123#32, 0x02000020#32, 0#32, 0x01000003#32] ∧
  assemble "dec.pkt.m 0x3000, 636, 12, 91000\nclrerr" =
    some [0x20000001#32, 0x3000#32, 0x27C#32, 0xC#32, 0x16378#32, 0x02000044#32, 0#32]
end

