-- ==== Sys2Proof/Laws/State.lean ====
section
/-! SUPPORT. For every update of State, the value of every field after it (each true by rfl but for the conditional ones),
tagged simp, so that no later proof unfolds a record update. -/

namespace Sys2Proof.Machine

/-! #### The parameters, as numbers -/

@[simp] theorem config_hdr : Config.hdr = 7 := rfl
@[simp] theorem config_overhead : Config.overhead = 20 := rfl
@[simp] theorem config_mtuMin : Config.mtuMin = 21 := rfl
@[simp] theorem config_auMax : Config.auMax = 8191 := rfl
@[simp] theorem config_capMin : Config.capMin = 8 := rfl
@[simp] theorem config_capMax : Config.capMax = 8191 := rfl
@[simp] theorem config_imemSize : Config.imemSize = 4294967296 := rfl

variable (s : State)

/-! #### emitEvent -/

@[simp] theorem emitEvent_cp (e : Event) : (emitEvent s e).cp = s.cp := rfl
@[simp] theorem emitEvent_enc (e : Event) : (emitEvent s e).enc = s.enc := rfl
@[simp] theorem emitEvent_dec (e : Event) : (emitEvent s e).dec = s.dec := rfl
@[simp] theorem emitEvent_err (e : Event) : (emitEvent s e).err = s.err := rfl
@[simp] theorem emitEvent_stream (e : Event) : (emitEvent s e).stream = s.stream := rfl
@[simp] theorem emitEvent_imem (e : Event) : (emitEvent s e).imem = s.imem := rfl
@[simp] theorem emitEvent_log (e : Event) : (emitEvent s e).log = s.log ++ [e] := rfl

/-! #### emitResp -/

@[simp] theorem emitResp_cp (w : Word) : (emitResp s w).cp = s.cp := rfl
@[simp] theorem emitResp_enc (w : Word) : (emitResp s w).enc = s.enc := rfl
@[simp] theorem emitResp_dec (w : Word) : (emitResp s w).dec = s.dec := rfl
@[simp] theorem emitResp_err (w : Word) : (emitResp s w).err = s.err := rfl
@[simp] theorem emitResp_stream (w : Word) : (emitResp s w).stream = s.stream := rfl
@[simp] theorem emitResp_imem (w : Word) : (emitResp s w).imem = s.imem := rfl
@[simp] theorem emitResp_log (w : Word) : (emitResp s w).log = s.log ++ [.resp w] := rfl

/-! #### emitFrag -/

@[simp] theorem emitFrag_cp (p : List Byte) (m : Bool) (ts : Word) : (emitFrag s p m ts).cp = s.cp := rfl
@[simp] theorem emitFrag_enc (p : List Byte) (m : Bool) (ts : Word) : (emitFrag s p m ts).enc = s.enc := rfl
@[simp] theorem emitFrag_dec (p : List Byte) (m : Bool) (ts : Word) : (emitFrag s p m ts).dec = s.dec := rfl
@[simp] theorem emitFrag_err (p : List Byte) (m : Bool) (ts : Word) : (emitFrag s p m ts).err = s.err := rfl
@[simp] theorem emitFrag_stream (p : List Byte) (m : Bool) (ts : Word) : (emitFrag s p m ts).stream = s.stream := rfl
@[simp] theorem emitFrag_imem (p : List Byte) (m : Bool) (ts : Word) : (emitFrag s p m ts).imem = s.imem := rfl
@[simp] theorem emitFrag_log (p : List Byte) (m : Bool) (ts : Word) :
    (emitFrag s p m ts).log = s.log ++ [.frag { payload := p, len := p.length, marker := m, ts := ts } (besideOf s.enc)] := rfl

/-! #### advance -/

@[simp] theorem advance_cp (k : Nat) : (advance s k).cp = s.cp + k := rfl
@[simp] theorem advance_enc (k : Nat) : (advance s k).enc = s.enc := rfl
@[simp] theorem advance_dec (k : Nat) : (advance s k).dec = s.dec := rfl
@[simp] theorem advance_err (k : Nat) : (advance s k).err = s.err := rfl
@[simp] theorem advance_stream (k : Nat) : (advance s k).stream = s.stream := rfl
@[simp] theorem advance_imem (k : Nat) : (advance s k).imem = s.imem := rfl
@[simp] theorem advance_log (k : Nat) : (advance s k).log = s.log := rfl

/-! #### takeError -/

@[simp] theorem takeError_cp (e : ErrCode) (op : BitVec 8) : (takeError s e op).cp = s.cp + commandWords op := rfl
@[simp] theorem takeError_enc (e : ErrCode) (op : BitVec 8) : (takeError s e op).enc = s.enc := rfl
@[simp] theorem takeError_dec (e : ErrCode) (op : BitVec 8) : (takeError s e op).dec = s.dec := rfl
@[simp] theorem takeError_err (e : ErrCode) (op : BitVec 8) :
    (takeError s e op).err = { code := e.code, op := op } := rfl
@[simp] theorem takeError_stream (e : ErrCode) (op : BitVec 8) : (takeError s e op).stream = s.stream := rfl
@[simp] theorem takeError_imem (e : ErrCode) (op : BitVec 8) : (takeError s e op).imem = s.imem := rfl
@[simp] theorem takeError_log (e : ErrCode) (op : BitVec 8) : (takeError s e op).log = s.log := rfl

/-! #### lockEnc -/

@[simp] theorem lockEnc_cp : (lockEnc s).cp = s.cp := rfl
@[simp] theorem lockEnc_enc : (lockEnc s).enc = { s.enc with locked := true } := rfl
@[simp] theorem lockEnc_dec : (lockEnc s).dec = s.dec := rfl
@[simp] theorem lockEnc_err : (lockEnc s).err = s.err := rfl
@[simp] theorem lockEnc_stream : (lockEnc s).stream = s.stream := rfl
@[simp] theorem lockEnc_imem : (lockEnc s).imem = s.imem := rfl
@[simp] theorem lockEnc_log : (lockEnc s).log = s.log := rfl

/-! #### copyChunk -/

@[simp] theorem copyChunk_cp (bs : List Byte) (t : Word) : (copyChunk s bs t).cp = s.cp := rfl
@[simp] theorem copyChunk_enc (bs : List Byte) (t : Word) : (copyChunk s bs t).enc = s.enc := rfl
@[simp] theorem copyChunk_dec (bs : List Byte) (t : Word) :
    (copyChunk s bs t).dec = { s.dec with acc := accWrite s.dec.acc s.dec.fill bs, fill := s.dec.fill + bs.length, ts := t } := rfl
@[simp] theorem copyChunk_err (bs : List Byte) (t : Word) : (copyChunk s bs t).err = s.err := rfl
@[simp] theorem copyChunk_stream (bs : List Byte) (t : Word) : (copyChunk s bs t).stream = s.stream := rfl
@[simp] theorem copyChunk_imem (bs : List Byte) (t : Word) : (copyChunk s bs t).imem = s.imem := rfl
@[simp] theorem copyChunk_log (bs : List Byte) (t : Word) : (copyChunk s bs t).log = s.log := rfl

/-! #### dropFragment -/

@[simp] theorem dropFragment_cp : (dropFragment s).cp = s.cp := rfl
@[simp] theorem dropFragment_enc : (dropFragment s).enc = s.enc := rfl
@[simp] theorem dropFragment_dec : (dropFragment s).dec = { s.dec with dropCnt := countUp s.dec.dropCnt } := rfl
@[simp] theorem dropFragment_err : (dropFragment s).err = s.err := rfl
@[simp] theorem dropFragment_stream : (dropFragment s).stream = s.stream := rfl
@[simp] theorem dropFragment_imem : (dropFragment s).imem = s.imem := rfl
@[simp] theorem dropFragment_log : (dropFragment s).log = s.log := rfl

/-! #### encReset -/

@[simp] theorem encReset_cp : (encReset s).cp = s.cp := rfl
@[simp] theorem encReset_enc : (encReset s).enc = Enc.reset := rfl
@[simp] theorem encReset_dec : (encReset s).dec = s.dec := rfl
@[simp] theorem encReset_err : (encReset s).err = s.err := rfl
@[simp] theorem encReset_stream : (encReset s).stream = s.stream := rfl
@[simp] theorem encReset_imem : (encReset s).imem = s.imem := rfl
@[simp] theorem encReset_log : (encReset s).log = s.log := rfl

/-! #### hostWrite -/

@[simp] theorem hostWrite_cp (a : Word) (b : Byte) : (hostWrite a b s).cp = s.cp := rfl
@[simp] theorem hostWrite_enc (a : Word) (b : Byte) : (hostWrite a b s).enc = s.enc := rfl
@[simp] theorem hostWrite_dec (a : Word) (b : Byte) : (hostWrite a b s).dec = s.dec := rfl
@[simp] theorem hostWrite_err (a : Word) (b : Byte) : (hostWrite a b s).err = s.err := rfl
@[simp] theorem hostWrite_stream (a : Word) (b : Byte) : (hostWrite a b s).stream = s.stream := rfl
@[simp] theorem hostWrite_imem (a : Word) (b : Byte) : (hostWrite a b s).imem = s.imem.set a.toNat b := rfl
@[simp] theorem hostWrite_log (a : Word) (b : Byte) : (hostWrite a b s).log = s.log := rfl

/-! #### hostAppend -/

@[simp] theorem hostAppend_cp (ws : List Word) : (hostAppend ws s).cp = s.cp := rfl
@[simp] theorem hostAppend_enc (ws : List Word) : (hostAppend ws s).enc = s.enc := rfl
@[simp] theorem hostAppend_dec (ws : List Word) : (hostAppend ws s).dec = s.dec := rfl
@[simp] theorem hostAppend_err (ws : List Word) : (hostAppend ws s).err = s.err := rfl
@[simp] theorem hostAppend_stream (ws : List Word) : (hostAppend ws s).stream = s.stream ++ ws := rfl
@[simp] theorem hostAppend_imem (ws : List Word) : (hostAppend ws s).imem = s.imem := rfl
@[simp] theorem hostAppend_log (ws : List Word) : (hostAppend ws s).log = s.log := rfl

/-! #### lockDec -/

@[simp] theorem lockDec_cp : (lockDec s).cp = s.cp := by unfold lockDec; split <;> rfl
@[simp] theorem lockDec_enc : (lockDec s).enc = s.enc := by unfold lockDec; split <;> rfl
@[simp] theorem lockDec_err : (lockDec s).err = s.err := by unfold lockDec; split <;> rfl
@[simp] theorem lockDec_stream : (lockDec s).stream = s.stream := by unfold lockDec; split <;> rfl
@[simp] theorem lockDec_imem : (lockDec s).imem = s.imem := by unfold lockDec; split <;> rfl
@[simp] theorem lockDec_log : (lockDec s).log = s.log := by unfold lockDec; split <;> rfl

/-! #### noteMultiAu -/

@[simp] theorem noteMultiAu_cp (n : Nat) : (noteMultiAu n s).cp = s.cp := by unfold noteMultiAu; split <;> rfl
@[simp] theorem noteMultiAu_enc (n : Nat) : (noteMultiAu n s).enc = s.enc := by unfold noteMultiAu; split <;> rfl
@[simp] theorem noteMultiAu_err (n : Nat) : (noteMultiAu n s).err = s.err := by unfold noteMultiAu; split <;> rfl
@[simp] theorem noteMultiAu_stream (n : Nat) : (noteMultiAu n s).stream = s.stream := by unfold noteMultiAu; split <;> rfl
@[simp] theorem noteMultiAu_imem (n : Nat) : (noteMultiAu n s).imem = s.imem := by unfold noteMultiAu; split <;> rfl
@[simp] theorem noteMultiAu_log (n : Nat) : (noteMultiAu n s).log = s.log := by unfold noteMultiAu; split <;> rfl

/-! #### finalize -/

@[simp] theorem finalize_cp : (finalize s).cp = s.cp := by unfold finalize; split <;> rfl
@[simp] theorem finalize_enc : (finalize s).enc = s.enc := by unfold finalize; split <;> rfl
@[simp] theorem finalize_err : (finalize s).err = s.err := by unfold finalize; split <;> rfl
@[simp] theorem finalize_stream : (finalize s).stream = s.stream := by unfold finalize; split <;> rfl
@[simp] theorem finalize_imem : (finalize s).imem = s.imem := by unfold finalize; split <;> rfl

/-! #### decReset -/

@[simp] theorem decReset_cp : (decReset s).cp = s.cp := rfl
@[simp] theorem decReset_enc : (decReset s).enc = s.enc := rfl
@[simp] theorem decReset_err : (decReset s).err = s.err := rfl
@[simp] theorem decReset_stream : (decReset s).stream = s.stream := rfl
@[simp] theorem decReset_imem : (decReset s).imem = s.imem := rfl
@[simp] theorem decReset_log : (decReset s).log = s.log := rfl

/-! #### overflowFlush -/

@[simp] theorem overflowFlush_cp : (overflowFlush s).cp = s.cp := by simp [overflowFlush]
@[simp] theorem overflowFlush_enc : (overflowFlush s).enc = s.enc := by simp [overflowFlush]
@[simp] theorem overflowFlush_err : (overflowFlush s).err = s.err := by simp [overflowFlush]
@[simp] theorem overflowFlush_stream : (overflowFlush s).stream = s.stream := by simp [overflowFlush]
@[simp] theorem overflowFlush_imem : (overflowFlush s).imem = s.imem := by simp [overflowFlush]

/-! #### appendChunk -/

@[simp] theorem appendChunk_cp (bs : List Byte) (t : Word) : (appendChunk s bs t).cp = s.cp := by unfold appendChunk; split <;> simp
@[simp] theorem appendChunk_enc (bs : List Byte) (t : Word) : (appendChunk s bs t).enc = s.enc := by unfold appendChunk; split <;> simp
@[simp] theorem appendChunk_err (bs : List Byte) (t : Word) : (appendChunk s bs t).err = s.err := by unfold appendChunk; split <;> simp
@[simp] theorem appendChunk_stream (bs : List Byte) (t : Word) : (appendChunk s bs t).stream = s.stream := by unfold appendChunk; split <;> simp
@[simp] theorem appendChunk_imem (bs : List Byte) (t : Word) : (appendChunk s bs t).imem = s.imem := by unfold appendChunk; split <;> simp

end Sys2Proof.Machine
end

