-- ==== Sys2Proof/Laws/Memory.lean ====
section
/-! SUPPORT. IMEM: a read after a write, the canonical form and that every operation keeps it, and reads of ranges. -/

namespace Sys2Proof.Machine

/-! ### One byte -/

theorem Memory.byteAt_of_lt {m : Memory} {a : Nat} (h : ∀ c ∈ m, a < c.1) : m.byteAt a = Config.imemUnwritten := by
  induction m with
  | nil => rfl
  | cons c m ih =>
    have h0 := h c (by simp)
    have hne : c.1 ≠ a := by omega
    simp only [Memory.byteAt, hne, if_false]
    exact ih (fun d hd => h d (by simp [hd]))

/-- Read after write (20_memory R60): the written byte there, the old byte everywhere else. -/
theorem Memory.byteAt_set {m : Memory} (hm : m.wf) (a : Nat) (b : Byte) (x : Nat) :
    (m.set a b).byteAt x = if x = a then b else m.byteAt x := by
  induction m with
  | nil =>
    by_cases hx : x = a
    · by_cases hb : b = Config.imemUnwritten <;> simp [Memory.set, Memory.byteAt, hb, hx]
    · by_cases hb : b = Config.imemUnwritten <;> simp [Memory.set, Memory.byteAt, hb, hx, Ne.symm hx]
  | cons c m ih =>
    obtain ⟨hp, hq⟩ := hm
    rw [List.pairwise_cons] at hp
    have hm' : Memory.wf m := ⟨hp.2, fun d hd => hq d (by simp [hd])⟩
    have habove : ∀ y, y ≤ c.1 → Memory.byteAt m y = Config.imemUnwritten := fun y hy =>
      Memory.byteAt_of_lt (fun d hd => by have := hp.1 d hd; omega)
    obtain ⟨x0, y0⟩ := c
    simp only [Memory.set]
    by_cases h1 : a < x0
    · by_cases hb : b = Config.imemUnwritten
      · simp only [h1, hb, if_true, Memory.byteAt]
        by_cases hx : x = a
        · subst hx
          have hne : x0 ≠ x := by omega
          simp [hne, habove x (by simp; omega)]
        · simp [hx]
      · simp only [h1, hb, if_true, if_false, Memory.byteAt]
        by_cases hx : x = a
        · simp [hx]
        · simp [hx, Ne.symm hx]
    · by_cases h2 : a = x0
      · subst h2
        by_cases hb : b = Config.imemUnwritten
        · simp only [hb, if_true, Memory.byteAt]
          by_cases hx : x = a
          · simp [hx, habove a (le_refl _)]
          · simp [hx, Ne.symm hx]
        · by_cases hx : x = a
          · simp [hb, hx, Memory.byteAt]
          · simp [hb, hx, Ne.symm hx, Memory.byteAt]
      · simp only [h1, h2, if_false, Memory.byteAt]
        by_cases hx0 : x0 = x
        · subst hx0
          simp [Ne.symm h2]
        · simp only [hx0, if_false]
          exact ih hm'

/-! ### The canonical form -/

theorem Memory.mem_set {m : Memory} {a : Nat} {b : Byte} {c : Host.Cell} (h : c ∈ m.set a b) :
    c ∈ m ∨ c = (a, b) ∧ b ≠ Config.imemUnwritten := by
  induction m with
  | nil =>
    simp only [Memory.set] at h
    split at h <;> simp_all
  | cons d m ih =>
    obtain ⟨x0, y0⟩ := d
    simp only [Memory.set] at h
    split at h
    · split at h
      · exact .inl h
      · rename_i hb
        rcases List.mem_cons.1 h with rfl | h
        · exact .inr ⟨rfl, hb⟩
        · exact .inl h
    · split at h
      · split at h
        · exact .inl (List.mem_cons_of_mem _ h)
        · rename_i hb
          rcases List.mem_cons.1 h with rfl | h
          · exact .inr ⟨rfl, hb⟩
          · exact .inl (List.mem_cons_of_mem _ h)
      · rcases List.mem_cons.1 h with rfl | h
        · exact .inl List.mem_cons_self
        · rcases ih h with h | h
          · exact .inl (List.mem_cons_of_mem _ h)
          · exact .inr h

/-- A write keeps the canonical form. -/
theorem Memory.wf_set {m : Memory} (hm : m.wf) {a : Nat} (ha : a < Config.imemSize) (b : Byte) : (m.set a b).wf := by
  refine ⟨?_, fun c hc => ?_⟩
  · induction m with
    | nil => simp only [Memory.set]; split <;> simp
    | cons d m ih =>
      obtain ⟨hp, hq⟩ := hm
      have hm' : Memory.wf m := ⟨(List.pairwise_cons.1 hp).2, fun d hd => hq d (by simp [hd])⟩
      have hlt := (List.pairwise_cons.1 hp).1
      obtain ⟨x0, y0⟩ := d
      simp only [Memory.set]
      split
      · split
        · exact hp
        · refine List.pairwise_cons.2 ⟨fun c hc => ?_, hp⟩
          rcases List.mem_cons.1 hc with rfl | hc
          · assumption
          · have := hlt c hc; simp only at this ⊢; omega
      · split
        · split
          · exact hm'.1
          · rename_i h _
            subst h
            exact List.pairwise_cons.2 ⟨hlt, hm'.1⟩
        · refine List.pairwise_cons.2 ⟨fun c hc => ?_, ih hm'⟩
          rcases Memory.mem_set hc with hc | ⟨rfl, -⟩
          · exact hlt c hc
          · simp only; omega
  · rcases Memory.mem_set hc with hc | ⟨rfl, hb⟩
    · exact hm.2 c hc
    · exact ⟨ha, hb⟩

theorem hostWrite_wf {s : State} (h : s.imem.wf) (a : Word) (b : Byte) : (hostWrite a b s).imem.wf := by
  rw [hostWrite_imem]
  exact Memory.wf_set h a.isLt b

theorem hostStore_wf {s : State} (h : s.imem.wf) (a : Nat) (bs : List Byte) : (hostStore a bs s).imem.wf := by
  induction bs generalizing a s with
  | nil => exact h
  | cons b bs ih =>
    simp only [hostStore]
    split
    · exact ih (hostWrite_wf h _ _) _
    · exact ih h _

theorem reset_imem_wf : State.reset.imem.wf := by
  refine ⟨List.Pairwise.nil, fun c hc => ?_⟩
  cases hc

/-! ### Ranges -/

@[simp] theorem memRead_length (s : State) (a n : Nat) : (memRead s a n).length = n := by simp [memRead]

@[simp] theorem memRead_zero (s : State) (a : Nat) : memRead s a 0 = [] := rfl

theorem memRead_add (s : State) (a m n : Nat) : memRead s a (m + n) = memRead s a m ++ memRead s (a + m) n := by
  simp [memRead, List.range_add, Function.comp_def, Nat.add_assoc]

/-- A range read depends on the bytes of the range alone (20_memory R69). -/
theorem memRead_congr {s t : State} {a n : Nat}
    (h : ∀ x, a ≤ x → x < a + n → s.imem.byteAt x = t.imem.byteAt x) : memRead s a n = memRead t a n := by
  simp only [memRead]
  refine List.map_congr_left fun k hk => h _ (by omega) ?_
  have := List.mem_range.1 hk
  omega

theorem memRead_imem {s t : State} (h : s.imem = t.imem) (a n : Nat) : memRead s a n = memRead t a n := by
  simp [memRead, h]

end Sys2Proof.Machine
end

