-- ==== Sys2Proof/Laws/Accumulator.lean ====
section
/-! SUPPORT. The accumulator operations OBTAIN, FINALIZE, APPEND_CHUNK (41_decoder R137 to R139): what each leaves, said
once in terms of the payload held, and that each keeps the decoder's part of the invariant. -/

namespace Sys2Proof.Machine

/-- The decoder's part of the invariant that its operations need and keep. -/
structure Dec.Ok (d : Dec) : Prop where
  capMin : 8 ≤ d.cap
  fillMin : 7 ≤ d.fill
  fillMax : d.fill ≤ d.cap
  accLen : d.acc.length = d.cap
  zero : d.cfg.valid = false → d.acc.take 7 = List.replicate 7 0x00#8

theorem State.Inv.decOk {s : State} (h : s.Inv) : s.dec.Ok :=
  ⟨h.capLegal.1, h.fillBounds.1, h.fillBounds.2, h.accLength, h.zeroHeader⟩

/-! ### Headers and writes -/

@[simp] theorem adts_length (pr : BitVec 2) (sf : BitVec 4) (ch : BitVec 3) (n : Nat) : (adts pr sf ch n).length = 7 :=
  rfl

@[simp] theorem headerBytes_length (c : DecCfg) (n : Nat) : (headerBytes c n).length = 7 := by
  unfold headerBytes DecCfg.adts
  split <;> simp

@[simp] theorem auHdr_length (l : Nat) : (auHdr l).length = 4 := rfl

theorem accWrite_zero (acc bs : List Byte) : accWrite acc 0 bs = bs ++ acc.drop bs.length := by simp [accWrite]

theorem accWrite_length {acc bs : List Byte} {pos : Nat} (h : pos + bs.length ≤ acc.length) :
    (accWrite acc pos bs).length = acc.length := by
  simp [accWrite]
  omega

/-! ### OBTAIN -/

/-- OBTAIN in full (41_decoder R139). -/
theorem obtainAcc_eq (d : Dec) :
    obtainAcc d = { d with fill := 7, ts := 0, acc := headerBytes d.cfg 7 ++ d.acc.drop 7 } := by
  unfold obtainAcc
  rw [show (if d.cfg.valid then d.cfg.adts Config.hdr else List.replicate Config.hdr 0x00#8) = headerBytes d.cfg 7 from rfl,
    accWrite_zero, headerBytes_length]

/-! ### FINALIZE -/

theorem finalize_of_empty {s : State} (h : s.dec.fill = 7) : finalize s = s := by simp [finalize, h]

theorem finalAcc_eq {d : Dec} (h : d.Ok) : finalAcc d = headerBytes d.cfg d.fill ++ d.acc.drop 7 := by
  unfold finalAcc headerBytes
  split
  · simp [accWrite_zero, DecCfg.adts]
  · rename_i hv
    rw [← h.zero (by simpa using hv), List.take_append_drop]

theorem held_length {d : Dec} (h : d.Ok) : d.held.length = d.fill - 7 := by
  have := h.fillMax; have := h.accLen
  simp only [Dec.held, List.length_drop, List.length_take, config_hdr]
  omega

/-- The access unit a flush emits (20_memory R64, 41_decoder R138, R142). -/
theorem finalAu_eq {d : Dec} (h : d.Ok) :
    finalAu d = { bytes := headerBytes d.cfg d.fill ++ d.held, len := d.fill, ts := d.ts } := by
  have h7 := h.fillMin
  have hb : accRead (finalAcc d) 0 d.fill = headerBytes d.cfg d.fill ++ d.held := by
    rw [finalAcc_eq h]
    simp only [accRead, Dec.held, List.drop_zero, List.take_append, headerBytes_length, List.drop_take]
    rw [List.take_of_length_le (by simp; omega)]
  simp [finalAu, hb]

/-- FINALIZE in full, when something is held (41_decoder R138). -/
theorem finalize_of_held {s : State} (h : s.dec.Ok) (hf : s.dec.fill ≠ 7) :
    finalize s = { s with
      log := s.log ++ [.au { bytes := headerBytes s.dec.cfg s.dec.fill ++ s.dec.held, len := s.dec.fill, ts := s.dec.ts }]
      dec := { s.dec with
        fill := 7, ts := 0, acc := headerBytes s.dec.cfg 7 ++ s.dec.acc.drop 7, auCnt := s.dec.auCnt + 1 } } := by
  have h7 : ¬ s.dec.fill = Config.hdr := hf
  unfold finalize
  rw [if_neg h7]
  simp [finalAu_eq h, obtainAcc_eq, finalAcc_eq h, emitEvent, countUp]

theorem finalize_ok {s : State} (h : s.dec.Ok) : (finalize s).dec.Ok := by
  by_cases hf : s.dec.fill = 7
  · rwa [finalize_of_empty hf]
  · rw [finalize_of_held h hf]
    have := h.capMin; have := h.accLen
    refine ⟨h.capMin, le_refl _, by simp; omega, by simp; omega, fun hv => ?_⟩
    have hv' : s.dec.cfg.valid = false := hv
    simp [headerBytes, hv', List.replicate]

theorem finalize_fill {s : State} : (finalize s).dec.fill = 7 := by
  unfold finalize
  split
  · assumption
  · rfl

/-- FINALIZE appends nothing, or one AU event. -/
theorem finalize_log (s : State) :
    (finalize s).log = s.log ++ (if s.dec.fill = 7 then [] else [.au (finalAu s.dec)]) := by
  unfold finalize
  by_cases hf : s.dec.fill = 7 <;> simp [hf]

theorem held_of_empty {d : Dec} (h : d.fill = 7) : d.held = [] := by simp [Dec.held, h]

theorem held_eq_nil_iff {d : Dec} (h : d.Ok) : d.held = [] ↔ d.fill = 7 := by
  have := h.fillMin
  rw [← List.length_eq_zero_iff, held_length h]
  omega

/-! ### The parts of APPEND_CHUNK -/

theorem copyChunk_ok {s : State} (h : s.dec.Ok) {bs : List Byte} (hb : s.dec.fill + bs.length ≤ s.dec.cap) (t : Word) :
    (copyChunk s bs t).dec.Ok := by
  have h7 := h.fillMin; have hl := h.accLen
  refine ⟨h.capMin, ?_, hb, ?_, fun hv => ?_⟩
  · simp; omega
  · simp only [copyChunk_dec]
    rw [accWrite_length (by omega), hl]
  · simp only [copyChunk_dec, accWrite, List.append_assoc]
    rw [List.take_append_of_le_length (by simp; omega), List.take_take, Nat.min_eq_left h7]
    exact h.zero hv

/-- The copy of step 4 puts the chunk behind what is held (41_decoder R137). -/
theorem copyChunk_held {s : State} (h : s.dec.Ok) {bs : List Byte} (hb : s.dec.fill + bs.length ≤ s.dec.cap) (t : Word) :
    (copyChunk s bs t).dec.held = s.dec.held ++ bs := by
  have h7 := h.fillMin; have hl := h.accLen
  have hfl : (s.dec.acc.take s.dec.fill).length = s.dec.fill := by simp; omega
  simp only [Dec.held, copyChunk_dec, accWrite, config_hdr]
  rw [List.take_append_of_le_length (by simp; omega), List.take_of_length_le (by simp),
    List.drop_append_of_le_length (by omega)]

theorem overflowFlush_ok {s : State} (h : s.dec.Ok) : (overflowFlush s).dec.Ok :=
  finalize_ok (s := { s with dec := { s.dec with ovfCnt := countUp s.dec.ovfCnt } }) ⟨h.1, h.2, h.3, h.4, h.5⟩

theorem appendChunk_ok {s : State} (h : s.dec.Ok) {bs : List Byte} (hb : bs.length ≤ s.dec.cap - 7) (t : Word) :
    (appendChunk s bs t).dec.Ok := by
  unfold appendChunk
  split
  · refine copyChunk_ok (overflowFlush_ok h) ?_ t
    have hc := (overflowFlush_ok h).capMin
    have h1 : (overflowFlush s).dec.fill = 7 := finalize_fill
    have h2 : (overflowFlush s).dec.cap = s.dec.cap := by
      unfold overflowFlush finalize
      split <;> rfl
    omega
  · exact copyChunk_ok h (by omega) t

/-- APPEND_CHUNK without overflow (41_decoder R137, step 4). -/
theorem appendChunk_of_fits {s : State} {bs : List Byte} (hb : s.dec.fill + bs.length ≤ s.dec.cap) (t : Word) :
    appendChunk s bs t = copyChunk s bs t := by
  unfold appendChunk
  rw [if_neg (by omega)]

/-- The overflow flush in full: an overflow always emits (41_decoder R137). -/
theorem overflowFlush_eq {s : State} (h : s.dec.Ok) (hf : s.dec.fill ≠ 7) :
    overflowFlush s = { s with
      log := s.log ++ [.au { bytes := headerBytes s.dec.cfg s.dec.fill ++ s.dec.held, len := s.dec.fill, ts := s.dec.ts }]
      dec := { s.dec with
        fill := 7, ts := 0, acc := headerBytes s.dec.cfg 7 ++ s.dec.acc.drop 7, auCnt := s.dec.auCnt + 1
        ovfCnt := s.dec.ovfCnt + 1 } } := by
  exact finalize_of_held (s := { s with dec := { s.dec with ovfCnt := countUp s.dec.ovfCnt } })
    ⟨h.1, h.2, h.3, h.4, h.5⟩ hf

/-- APPEND_CHUNK with overflow: the flush, then the copy into the fresh accumulator (41_decoder R137). -/
theorem appendChunk_of_overflow {s : State} {bs : List Byte} (hb : s.dec.cap < s.dec.fill + bs.length) (t : Word) :
    appendChunk s bs t = copyChunk (overflowFlush s) bs t := by
  unfold appendChunk
  rw [if_pos (by omega)]

end Sys2Proof.Machine
end

