-- ==== Sys2Proof/Laws/Decode.lean ====
section
/-! SUPPORT. Command words as numbers, and what the decoder's field reads give on them. -/

namespace Sys2Proof

/-- A concatenation as a number. -/
theorem toNat_cat {n m : Nat} (x : BitVec n) (y : BitVec m) : (x ++ y).toNat = x.toNat * 2 ^ m + y.toNat := by
  rw [BitVec.toNat_append, ← Nat.shiftLeft_add_eq_or_of_lt y.isLt, Nat.shiftLeft_eq]

@[simp] theorem Op.ofCode_code (o : Op) : Op.ofCode o.code = some o := by cases o <;> rfl

/-- The opcode map reads back only what it lists (30_encoding R89). -/
theorem Op.code_of_ofCode {b : BitVec 8} {o : Op} (h : Op.ofCode b = some o) : b = o.code := by
  unfold Op.ofCode at h
  split_ifs at h with h1 h2 h3 h4 h5 h6 <;> simp_all <;> (subst h; rfl)

/-! ### Command words as numbers (30_encoding R82) -/

theorem reset_word (r : BitVec 22) (e d : Bool) :
    (commandWord (.reset r e d)).toNat = 0x01 * 2 ^ 24 + r.toNat * 4 + d.toNat * 2 + e.toNat := by
  have h : (commandWord (.reset r e d)).toNat =
      ((0x01#8 ++ r ++ BitVec.ofBool d ++ BitVec.ofBool e : BitVec (8 + 22 + 1 + 1))).toNat := rfl
  rw [h, toNat_cat, toNat_cat, toNat_cat, BitVec.toNat_ofBool, BitVec.toNat_ofBool]
  simp only [BitVec.toNat_ofNat]
  omega

theorem wrreg_word (r a : BitVec 12) (data : Word) :
    (commandWord (.wrreg r a data)).toNat = 0x02 * 2 ^ 24 + r.toNat * 2 ^ 12 + a.toNat := by
  have h : (commandWord (.wrreg r a data)).toNat = ((0x02#8 ++ r ++ a : BitVec (8 + 12 + 12))).toNat := rfl
  rw [h, toNat_cat, toNat_cat]
  simp only [BitVec.toNat_ofNat]
  omega

theorem rdreg_word (r a : BitVec 12) :
    (commandWord (.rdreg r a)).toNat = 0x03 * 2 ^ 24 + r.toNat * 2 ^ 12 + a.toNat := by
  have h : (commandWord (.rdreg r a)).toNat = ((0x03#8 ++ r ++ a : BitVec (8 + 12 + 12))).toNat := rfl
  rw [h, toNat_cat, toNat_cat]
  simp only [BitVec.toNat_ofNat]
  omega

theorem encAu_word (r : BitVec 24) (b s p d : Word) :
    (commandWord (.encAu r b s p d)).toNat = 0x10 * 2 ^ 24 + r.toNat := by
  have h : (commandWord (.encAu r b s p d)).toNat = ((0x10#8 ++ r : BitVec (8 + 24))).toNat := rfl
  rw [h, toNat_cat]
  simp only [BitVec.toNat_ofNat]

theorem decPkt_word (r : BitVec 23) (m : Bool) (b s o t : Word) :
    (commandWord (.decPkt r m b s o t)).toNat = 0x20 * 2 ^ 24 + r.toNat * 2 + m.toNat := by
  have h : (commandWord (.decPkt r m b s o t)).toNat =
      ((0x20#8 ++ r ++ BitVec.ofBool m : BitVec (8 + 23 + 1))).toNat := rfl
  rw [h, toNat_cat, toNat_cat, BitVec.toNat_ofBool]
  simp only [BitVec.toNat_ofNat]
  omega

theorem decFlush_word (r : BitVec 24) : (commandWord (.decFlush r)).toNat = 0x21 * 2 ^ 24 + r.toNat := by
  have h : (commandWord (.decFlush r)).toNat = ((0x21#8 ++ r : BitVec (8 + 24))).toNat := rfl
  rw [h, toNat_cat]
  simp only [BitVec.toNat_ofNat]

/-! ### Field reads as numbers -/

/-- A field read from bit `lo`, as a number (00_scope R12). -/
theorem toNat_field (w : Word) (lo n : Nat) : (w.extractLsb' lo n).toNat = w.toNat / 2 ^ lo % 2 ^ n := by
  rw [BitVec.extractLsb'_toNat, Nat.shiftRight_eq_div_pow]

/-- A single bit, as a number. -/
theorem bit_eq (w : Word) (k : Nat) : w.getLsbD k = decide (w.toNat / 2 ^ k % 2 = 1) := by
  rw [BitVec.getLsbD, Nat.testBit_eq_decide_div_mod_eq]

theorem toNat_opField (w : Word) : (opField w).toNat = w.toNat / 2 ^ 24 := by
  have := w.isLt
  rw [opField, toNat_field]
  omega

/-- OP of a command word is its instruction's opcode byte (30_encoding R81, R89). -/
theorem opField_commandWord (i : Instr) : opField (commandWord i) = i.op.code := by
  refine BitVec.eq_of_toNat_eq ?_
  rw [toNat_opField]
  cases i with
  | reset r e d =>
    have h1 := r.isLt; have h2 := e.toNat_lt; have h3 := d.toNat_lt
    rw [reset_word]; simp only [Instr.op, Op.code, BitVec.toNat_ofNat]; omega
  | wrreg r a x =>
    have h1 := r.isLt; have h2 := a.isLt
    rw [wrreg_word]; simp only [Instr.op, Op.code, BitVec.toNat_ofNat]; omega
  | rdreg r a =>
    have h1 := r.isLt; have h2 := a.isLt
    rw [rdreg_word]; simp only [Instr.op, Op.code, BitVec.toNat_ofNat]; omega
  | encAu r b s p d =>
    have h1 := r.isLt
    rw [encAu_word]; simp only [Instr.op, Op.code, BitVec.toNat_ofNat]; omega
  | decPkt r m b s o t =>
    have h1 := r.isLt; have h2 := m.toNat_lt
    rw [decPkt_word]; simp only [Instr.op, Op.code, BitVec.toNat_ofNat]; omega
  | decFlush r =>
    have h1 := r.isLt
    rw [decFlush_word]; simp only [Instr.op, Op.code, BitVec.toNat_ofNat]; omega

/-- The length of a command from its opcode byte (30_encoding R88). -/
theorem commandWords_code (o : Op) :
    commandWords o.code = match o with
      | .reset => 1 | .wrreg => 2 | .rdreg => 1 | .encAu => 5 | .decPkt => 5 | .decFlush => 1 := by
  cases o <;> rfl

/-- What the decoder needs of a command whose opcode it knows (30_encoding R88, R100): all its operand words. -/
theorem decodeOp_ok {o : Op} {cw : Word} {rest : List Word} {i : Instr} (h : decodeOp o cw rest = .ok i) :
    i.op = o ∧ commandWords o.code ≤ rest.length + 1 := by
  cases o with
  | reset => cases h; exact ⟨rfl, by simp [commandWords_code]⟩
  | wrreg =>
    match rest, h with
    | _ :: _, h => cases h; exact ⟨rfl, by simp [commandWords_code]⟩
  | rdreg => cases h; exact ⟨rfl, by simp [commandWords_code]⟩
  | encAu =>
    match rest, h with
    | _ :: _ :: _ :: _ :: _, h => cases h; exact ⟨rfl, by simp [commandWords_code]⟩
  | decPkt =>
    match rest, h with
    | _ :: _ :: _ :: _ :: _, h => cases h; exact ⟨rfl, by simp [commandWords_code]⟩
  | decFlush => cases h; exact ⟨rfl, by simp [commandWords_code]⟩

/-- Everything a successful decode says: a command word, its opcode, its length. -/
theorem decode_ok {ws : List Word} {i : Instr} (h : decode ws = .ok i) :
    ∃ cw rest, ws = cw :: rest ∧ opField cw = i.op.code ∧ decodeOp i.op cw rest = .ok i ∧
      commandWords i.op.code ≤ ws.length := by
  match ws, h with
  | cw :: rest, h =>
    simp only [decode] at h
    split at h
    · cases h
    · rename_i o ho
      obtain ⟨rfl, hl⟩ := decodeOp_ok h
      exact ⟨cw, rest, rfl, Op.code_of_ofCode ho, h, by simpa using hl⟩

end Sys2Proof
end

