-- ==== Sys2Proof/Laws/Loops.lean ====
section
/-! SUPPORT. The two loops of the core without their bound: ENC_AU's splitter emits the fragments of 40_encoder R113, and
DEC_PKT's repeat applies APPEND_CHUNK to the chunks of 41_decoder R140. -/

namespace Sys2Proof.Machine

/-! ### Ceilings -/

theorem ceilDiv_zero {c : Nat} (hc : 1 ≤ c) : (0 + c - 1) / c = 0 := Nat.div_eq_of_lt (by omega)

theorem ceilDiv_one {n c : Nat} (hn : 1 ≤ n) (h : n ≤ c) : (n + c - 1) / c = 1 := by
  have e : n + c - 1 = (n - 1) + c := by omega
  rw [e, Nat.add_div_right _ (by omega), Nat.div_eq_of_lt (by omega)]

theorem ceilDiv_step {n c : Nat} (hc : 1 ≤ c) (h : c < n) : (n + c - 1) / c = (n - c + c - 1) / c + 1 := by
  have e : n + c - 1 = (n - c + c - 1) + c := by omega
  rw [e, Nat.add_div_right _ (by omega)]

/-! ### The splitter -/

/-- Fragment `i` of the `rem` bytes that begin at `at`, cut at `cap` bytes (40_encoder R113 to R115). -/
def sliceFrag (s : State) (hdr : List Byte) (ts : Word) (cap start rem i : Nat) : Frag :=
  { payload := hdr ++ memRead s (start + i * cap) (min ((i + 1) * cap) rem - i * cap)
    len := hdr.length + (min ((i + 1) * cap) rem - i * cap)
    marker := decide (i + 1 = (rem + cap - 1) / cap)
    ts := ts }

@[simp] theorem emitSlice_imem (hdr : List Byte) (ts : Word) (src cur n : Nat) (m : Bool) (s : State) :
    (emitSlice hdr ts src cur n m s).imem = s.imem := rfl

theorem emitSlice_eq (hdr : List Byte) (ts : Word) (src cur n : Nat) (m : Bool) (s : State) :
    emitSlice hdr ts src cur n m s = { s with
      enc := { s.enc with fragCnt := s.enc.fragCnt + 1 }
      log := s.log ++
        [.frag { payload := hdr ++ memRead s (src + cur) n, len := hdr.length + n, marker := m, ts := ts }
          (besideOf s.enc)] } := by
  simp [emitSlice, emitFrag, emitEvent, countUp]

theorem sliceFrag_imem {s s' : State} (h : s.imem = s'.imem) (hdr : List Byte) (ts : Word) (cap start rem i : Nat) :
    sliceFrag s hdr ts cap start rem i = sliceFrag s' hdr ts cap start rem i := by
  simp [sliceFrag, memRead_imem h]

theorem sliceFrag_only {s : State} {hdr : List Byte} {ts : Word} {cap start rem : Nat} (h1 : 1 ≤ rem) (h2 : rem ≤ cap) :
    sliceFrag s hdr ts cap start rem 0 =
      { payload := hdr ++ memRead s start rem, len := hdr.length + rem, marker := true, ts := ts } := by
  simp [sliceFrag, ceilDiv_one h1 h2, Nat.min_eq_right h2]

theorem sliceFrag_first {s : State} {hdr : List Byte} {ts : Word} {cap start rem : Nat} (h1 : 1 ≤ cap) (h2 : cap < rem) :
    sliceFrag s hdr ts cap start rem 0 =
      { payload := hdr ++ memRead s start cap, len := hdr.length + cap, marker := false, ts := ts } := by
  have hp : 0 < (rem - cap + cap - 1) / cap := Nat.div_pos (by omega) (by omega)
  have hm : min ((0 + 1) * cap) rem - 0 * cap = cap := by
    rw [Nat.zero_add, Nat.one_mul, Nat.zero_mul, Nat.min_eq_left (by omega)]
    rfl
  simp only [sliceFrag, hm, ceilDiv_step h1 h2]
  simp
  omega

theorem sliceFrag_next {s : State} {hdr : List Byte} {ts : Word} {cap start rem i : Nat} (h1 : 1 ≤ cap) (h2 : cap < rem) :
    sliceFrag s hdr ts cap start rem (i + 1) = sliceFrag s hdr ts cap (start + cap) (rem - cap) i := by
  have hm : min ((i + 1 + 1) * cap) rem - (i + 1) * cap = min ((i + 1) * cap) (rem - cap) - i * cap := by
    have e1 : (i + 1 + 1) * cap = (i + 1) * cap + cap := by ring
    have e2 : (i + 1) * cap = i * cap + cap := by ring
    rw [e1, e2]
    omega
  have ha : start + (i + 1) * cap = start + cap + i * cap := by ring
  simp only [sliceFrag, hm, ha, ceilDiv_step h1 h2]
  simp

/-- The splitter in full: enough passes emit ceil(rem / cap) fragments, and count them (40_encoder R113, R117, R121). -/
theorem splitLoop_eq {hdr : List Byte} {ts : Word} {cap src : Nat} (hc : 1 ≤ cap) :
    ∀ (fuel cur rem : Nat) (s : State), rem ≤ fuel →
      splitLoop hdr ts cap src fuel cur rem s = { s with
        enc := { s.enc with fragCnt := s.enc.fragCnt + BitVec.ofNat 32 ((rem + cap - 1) / cap) }
        log := s.log ++ (List.range ((rem + cap - 1) / cap)).map
          (fun i => .frag (sliceFrag s hdr ts cap (src + cur) rem i) (besideOf s.enc)) } := by
  intro fuel
  induction fuel with
  | zero =>
    intro cur rem s h
    obtain rfl : rem = 0 := by omega
    simp only [splitLoop, ceilDiv_zero hc]
    simp
  | succ fuel ih =>
    intro cur rem s h
    rw [splitLoop]
    by_cases h0 : rem = 0
    · subst h0
      simp only [ceilDiv_zero hc]
      simp
    rw [if_neg h0]
    by_cases h1 : rem ≤ cap
    · simp only [if_pos h1, Nat.sub_self]
      rw [ih _ _ _ (by omega)]
      simp only [ceilDiv_zero hc, ceilDiv_one (by omega) h1, emitSlice_eq]
      simp [h1, sliceFrag_only (by omega : 1 ≤ rem) h1]
    · simp only [if_neg h1]
      rw [ih _ _ _ (by omega)]
      have h2 : cap < rem := by omega
      simp only [ceilDiv_step hc h2, List.range_succ_eq_map, List.map_cons, List.map_map,
        sliceFrag_first hc h2, Function.comp_def, sliceFrag_next hc h2]
      have hi : ∀ m i, sliceFrag (emitSlice hdr ts src cur cap m s) hdr ts cap (src + (cur + cap)) (rem - cap) i =
          sliceFrag s hdr ts cap (src + cur + cap) (rem - cap) i := fun m i => by
        rw [sliceFrag_imem (emitSlice_imem ..), Nat.add_assoc]
      simp only [hi]
      have ha : ∀ n : Nat, s.enc.fragCnt + 1#32 + BitVec.ofNat 32 n = s.enc.fragCnt + BitVec.ofNat 32 (n + 1) := by
        intro n
        rw [BitVec.ofNat_add, BitVec.add_assoc, BitVec.add_comm (1#32)]
      simp [emitSlice_eq, h1, besideOf, ha]

/-! ### The chunks -/

theorem chunksOf_short {w : Nat} {bs : List Byte} (hw : 1 ≤ w) (h : bs.length ≤ w) : chunksOf w bs = [bs] := by
  have hJ : max 1 ((bs.length + w - 1) / w) = 1 := by
    rcases Nat.eq_zero_or_pos bs.length with h0 | h0
    · rw [h0, ceilDiv_zero hw]; rfl
    · rw [ceilDiv_one h0 h]; rfl
  simp [chunksOf, hJ, List.take_of_length_le h]

theorem chunksOf_long {w : Nat} {bs : List Byte} (hw : 1 ≤ w) (h : w < bs.length) :
    chunksOf w bs = bs.take w :: chunksOf w (bs.drop w) := by
  have hp : 0 < (bs.length - w + w - 1) / w := Nat.div_pos (by omega) (by omega)
  have h1 : max 1 ((bs.length + w - 1) / w) = (bs.length - w + w - 1) / w + 1 := by
    rw [ceilDiv_step hw h]
    omega
  have h2 : max 1 (((bs.drop w).length + w - 1) / w) = (bs.length - w + w - 1) / w := by
    rw [List.length_drop]
    omega
  simp only [chunksOf, h1, h2, List.range_succ_eq_map, List.map_cons, List.map_map, Nat.zero_mul, List.drop_zero]
  congr 1
  refine List.map_congr_left fun j _ => ?_
  simp only [Function.comp_apply, List.drop_drop, Nat.succ_eq_add_one]
  rw [Nat.add_mul, Nat.one_mul, Nat.add_comm w]

theorem chunksOf_ne_nil (w : Nat) (bs : List Byte) : chunksOf w bs ≠ [] := by
  intro h
  have := congrArg List.length h
  simp [chunksOf] at this

/-- A property of chunk lists, from its two cases. -/
theorem chunksOf_induction {w : Nat} (hw : 1 ≤ w) {P : List Byte → List (List Byte) → Prop}
    (short : ∀ bs, bs.length ≤ w → P bs [bs])
    (long : ∀ bs, w < bs.length → P (bs.drop w) (chunksOf w (bs.drop w)) → P bs (bs.take w :: chunksOf w (bs.drop w))) :
    ∀ bs, P bs (chunksOf w bs) := by
  intro bs
  induction hn : bs.length using Nat.strong_induction_on generalizing bs with
  | _ n ih =>
    by_cases h : bs.length ≤ w
    · rw [chunksOf_short hw h]
      exact short bs h
    · have h' : w < bs.length := by omega
      rw [chunksOf_long hw h']
      exact long bs h' (ih (bs.drop w).length (by rw [List.length_drop]; omega) _ rfl)

/-- No chunk is longer than `w`, and the chunks side by side are the bytes (41_decoder R140). -/
theorem chunksOf_spec {w : Nat} (hw : 1 ≤ w) (bs : List Byte) :
    (∀ c ∈ chunksOf w bs, c.length ≤ w) ∧ (chunksOf w bs).flatten = bs := by
  refine chunksOf_induction hw (P := fun bs cs => (∀ c ∈ cs, c.length ≤ w) ∧ cs.flatten = bs) ?_ ?_ bs
  · intro bs h
    simpa using h
  · rintro bs h ⟨h1, h2⟩
    refine ⟨?_, ?_⟩
    · intro c hc
      rcases List.mem_cons.1 hc with rfl | hc
      · simp
      · exact h1 c hc
    · rw [List.flatten_cons, h2, List.take_append_drop]

/-! ### DEC_PKT's loop -/

theorem finalize_cap (s : State) : (finalize s).dec.cap = s.dec.cap := by
  unfold finalize
  split <;> rfl

theorem appendChunk_cap (s : State) (bs : List Byte) (t : Word) : (appendChunk s bs t).dec.cap = s.dec.cap := by
  unfold appendChunk
  split
  · simp [overflowFlush, finalize_cap]
  · rfl

/-- The repeat loop in full: enough passes apply APPEND_CHUNK to the chunks of what is left, in order (41_decoder R134,
R140, R149). -/
theorem chunkLoop_eq {q avail : Nat} {t : Word} :
    ∀ (fuel k : Nat) (s : State), 8 ≤ s.dec.cap → k ≤ avail → avail - k < fuel →
      chunkLoop q avail t fuel k s =
        (chunksOf (s.dec.cap - 7) (memRead s (q + k) (avail - k))).foldl (fun s c => appendChunk s c t) s := by
  intro fuel
  induction fuel with
  | zero => intro k s _ _ h; omega
  | succ fuel ih =>
    intro k s hcap hk hf
    rw [chunkLoop]
    simp only [config_hdr]
    by_cases h : avail - k ≤ s.dec.cap - 7
    · rw [Nat.min_eq_left h, if_pos (by omega), chunksOf_short (by omega) (by simpa using h)]
      rfl
    · have h' : s.dec.cap - 7 < (memRead s (q + k) (avail - k)).length := by rw [memRead_length]; omega
      rw [Nat.min_eq_right (by omega), if_neg (by omega), ih _ _ (by rwa [appendChunk_cap]) (by omega) (by omega),
        chunksOf_long (by omega) h', List.foldl_cons, appendChunk_cap]
      have hsplit : memRead s (q + k) (avail - k) =
          memRead s (q + k) (s.dec.cap - 7) ++ memRead s (q + k + (s.dec.cap - 7)) (avail - k - (s.dec.cap - 7)) := by
        rw [← memRead_add]
        congr 1
        omega
      have ht : (memRead s (q + k) (avail - k)).take (s.dec.cap - 7) = memRead s (q + k) (s.dec.cap - 7) := by
        rw [hsplit, List.take_left' (by simp)]
      have hd : (memRead s (q + k) (avail - k)).drop (s.dec.cap - 7) =
          memRead s (q + k + (s.dec.cap - 7)) (avail - k - (s.dec.cap - 7)) := by
        rw [hsplit, List.drop_left' (by simp)]
      rw [ht, hd]
      have hm : memRead (appendChunk s (memRead s (q + k) (s.dec.cap - 7)) t) (q + (k + (s.dec.cap - 7)))
          (avail - (k + (s.dec.cap - 7))) = memRead s (q + k + (s.dec.cap - 7)) (avail - k - (s.dec.cap - 7)) := by
        rw [memRead_imem (appendChunk_imem ..), Nat.add_assoc, Nat.sub_add_eq]
      rw [hm]

end Sys2Proof.Machine
end

