-- ==== Sys2Proof/Laws/Exec.lean ====
section
/-! SUPPORT. What a command, and a step, can do, said once: the inversion lemmas that later proofs cite instead of
unfolding the meanings. -/

namespace Sys2Proof.Machine

/-! ### Parts of the meanings -/

theorem rangeFits_iff (base size : Word) : rangeFits base size = true ↔ base.toNat + size.toNat ≤ 2 ^ 32 := by
  simp [rangeFits]

theorem rangeFits_eq_false_iff (base size : Word) : rangeFits base size = false ↔ 2 ^ 32 < base.toNat + size.toNat := by
  simp [rangeFits]

/-- What ENC_AU does once accepted, in full (40_encoder R110 to R116). -/
theorem encodeAccepted_eq {s : State} {src l : Nat} {dts : Word} (hm : 21 ≤ s.enc.mtu.toNat) :
    encodeAccepted src l dts s = { s with
      enc := { s.enc with
        locked := true
        auCnt := s.enc.auCnt + 1
        fragCnt := s.enc.fragCnt + BitVec.ofNat 32 ((l + (s.enc.mtu.toNat - 20) - 1) / (s.enc.mtu.toNat - 20)) }
      log := s.log ++ (List.range ((l + (s.enc.mtu.toNat - 20) - 1) / (s.enc.mtu.toNat - 20))).map
        (fun i => .frag (sliceFrag s (auHdr l) (dts % s.enc.cycle) (s.enc.mtu.toNat - 20) src l i) (besideOf s.enc)) } := by
  unfold encodeAccepted
  simp only [config_overhead]
  rw [splitLoop_eq (by omega) _ _ _ _ (le_refl _)]
  rfl

/-- A property that DEC_PKT's parts keep holds after DEC_PKT (41_decoder R134). -/
theorem decodeAccepted_induction {P : State → Prop} {m : Bool} {base size offset : Nat} {t : Word} {s : State}
    (lock : P (lockDec s)) (drop : ∀ s, P s → P (dropFragment s)) (note : ∀ c s, P s → P (noteMultiAu c s))
    (append : ∀ s bs, bs.length ≤ s.dec.cap - 7 → P s → P (appendChunk s bs t)) (fin : ∀ s, P s → P (finalize s)) :
    P (decodeAccepted m base size offset t s) := by
  have loop : ∀ (fuel q avail k : Nat) (s : State), P s → P (chunkLoop q avail t fuel k s) := by
    intro fuel
    induction fuel with
    | zero => intro q avail k s h; exact h
    | succ fuel ih =>
      intro q avail k s h
      rw [chunkLoop]
      have h1 := append s (memRead s (q + k) (min (avail - k) (s.dec.cap - Config.hdr))) (by simp) h
      split
      · exact h1
      · exact ih _ _ _ _ h1
  unfold decodeAccepted
  simp only
  split
  · exact drop _ lock
  split
  · exact drop _ lock
  split
  · exact fin _ (loop _ _ _ _ _ (note _ _ lock))
  · exact loop _ _ _ _ _ (note _ _ lock)

/-- Without a lock or a reset, what DEC_PKT drops (41_decoder R135). -/
theorem decodeAccepted_malformed {s : State} {m : Bool} {base size offset t : Word}
    (h : offset.toNat > size.toNat ∨ size.toNat - offset.toNat < 2 ∨
      2 + 2 * countAt s (base.toNat + offset.toNat) > size.toNat - offset.toNat) :
    decodeAccepted m base.toNat size.toNat offset.toNat t s = dropFragment (lockDec s) := by
  unfold decodeAccepted
  by_cases h1 : offset.toNat > size.toNat ∨ size.toNat - offset.toNat < 2
  · simp only [if_pos h1]
  · have h2 : auHeaderRegion (auHeaderCount s (base.toNat + offset.toNat)) > size.toNat - offset.toNat := by
      have : 2 + 2 * countAt s (base.toNat + offset.toNat) > size.toNat - offset.toNat := by omega
      simpa [auHeaderRegion, auHeaderCount, u16be, countAt, Nat.shiftRight_eq_div_pow] using this
    simp only [if_neg h1, if_pos h2]

/-- What DEC_PKT does with a well-formed fragment: lock, count, append the chunks, and flush on the marker (41_decoder
R134, R140). -/
theorem decodeAccepted_wellFormed {s : State} {m : Bool} {base size offset t : Word} (hc : 8 ≤ s.dec.cap)
    (h : FragmentWellFormed s base size offset) :
    decodeAccepted m base.toNat size.toNat offset.toNat t s =
      (let s2 := (chunksOf (s.dec.cap - 7) (fragmentData s base size offset)).foldl (fun s c => appendChunk s c t)
        (noteMultiAu (countAt s (base.toNat + offset.toNat)) (lockDec s))
       if m then finalize s2 else s2) := by
  have hcount : auHeaderCount s (base.toNat + offset.toNat) = countAt s (base.toNat + offset.toNat) := by
    simp [auHeaderCount, countAt, u16be, Nat.shiftRight_eq_div_pow]
  have h1 : ¬ (offset.toNat > size.toNat ∨ size.toNat - offset.toNat < 2) := by
    have := h.offsetLe; have := h.twoBytes; omega
  have h2 : ¬ (auHeaderRegion (countAt s (base.toNat + offset.toNat)) > size.toNat - offset.toNat) := by
    have := h.region; simp only [auHeaderRegion]; omega
  unfold decodeAccepted
  simp only [if_neg h1, hcount, if_neg h2]
  have hcap : ∀ c, (noteMultiAu c (lockDec s)).dec.cap = s.dec.cap := by
    intro c
    unfold noteMultiAu lockDec
    split <;> split <;> rfl
  rw [chunkLoop_eq _ _ _ (by rwa [hcap]) (Nat.zero_le _) (by omega), hcap]
  have hmem : memRead (noteMultiAu (countAt s (base.toNat + offset.toNat)) (lockDec s))
      (base.toNat + offset.toNat + auHeaderRegion (countAt s (base.toNat + offset.toNat)) + 0)
      (size.toNat - offset.toNat - auHeaderRegion (countAt s (base.toNat + offset.toNat)) - 0) =
      fragmentData s base size offset := by
    rw [memRead_imem (t := s) (by simp)]
    rfl
  rw [hmem]

/-! ### A command -/

/-- What a command that raises no error does to the state, and when (40_encoder R110, 41_decoder R134, R143, 42_control
R160 to R162). -/
def Effect (i : Instr) (s t : State) : Prop :=
  match i with
  | .reset rsv enc dec => rsv = 0 ∧ t = advance (resetUnits enc dec s) 1
  | .wrreg rsv addr data =>
    rsv = 0 ∧ ((Reg.ofAddr addr = some .err ∧ t = advance { s with err := Err.clear } 2) ∨
      ∃ r u, Reg.ofAddr addr = some r ∧ r.access = .rwc u ∧ s.unitLocked u = false ∧
        t = advance (regWrite s r (data &&& r.wmask)) 2)
  | .rdreg rsv addr => rsv = 0 ∧ ∃ r, Reg.ofAddr addr = some r ∧ t = advance (emitResp s (regRead s r)) 1
  | .encAu rsv base size pfx dts =>
    rsv = 0 ∧ EncAccepts s base size pfx ∧
      t = advance (encodeAccepted (base.toNat + pfx.toNat) (size.toNat - pfx.toNat) dts s) 5
  | .decPkt rsv m base size offset ts =>
    rsv = 0 ∧ base.toNat + size.toNat ≤ 2 ^ 32 ∧
      t = advance (decodeAccepted m base.toNat size.toNat offset.toNat ts s) 5
  | .decFlush rsv => rsv = 0 ∧ t = advance (finalize (lockDec s)) 1

/-- What a command that raises an error does: the error entry, after RESP(0) for RDREG (60_exceptions R183). -/
def Raises (i : Instr) (s t : State) : Prop :=
  ∃ e, t = takeError (if i.op = .rdreg then emitResp s 0#32 else s) e i.op.code

theorem Reg.access_wc {r : Reg} (h : r.access = .wc) : r = .err := by cases r <;> simp_all [Reg.access]

/-- Everything a command can do: it has its effect or raises an error, and always has a next state. -/
theorem exec_cases (i : Instr) (s : State) : ∃ t, exec i s = .next t ∧ (Raises i s t ∨ Effect i s t) := by
  cases i with
  | reset rsv enc dec =>
    simp only [exec, execReset]
    split
    · exact ⟨_, rfl, .inl ⟨_, rfl⟩⟩
    · exact ⟨_, rfl, .inr ⟨by simp_all, rfl⟩⟩
  | wrreg rsv addr data =>
    simp only [exec, execWrreg]
    split
    · exact ⟨_, rfl, .inl ⟨_, rfl⟩⟩
    rename_i h0
    split
    · exact ⟨_, rfl, .inl ⟨_, rfl⟩⟩
    rename_i r hr
    split
    · rename_i ha
      obtain rfl := Reg.access_wc ha
      exact ⟨_, rfl, .inr ⟨by simp_all, .inl ⟨hr, rfl⟩⟩⟩
    · exact ⟨_, rfl, .inl ⟨_, rfl⟩⟩
    rename_i u ha
    split
    · exact ⟨_, rfl, .inl ⟨_, rfl⟩⟩
    · exact ⟨_, rfl, .inr ⟨by simp_all, .inr ⟨r, u, hr, ha, by simp_all, rfl⟩⟩⟩
  | rdreg rsv addr =>
    simp only [exec, execRdreg]
    split
    · exact ⟨_, rfl, .inl ⟨_, rfl⟩⟩
    rename_i h0
    split
    · exact ⟨_, rfl, .inl ⟨_, rfl⟩⟩
    · rename_i r hr
      exact ⟨_, rfl, .inr ⟨by simp_all, r, hr, rfl⟩⟩
  | encAu rsv base size pfx dts =>
    simp only [exec, execEncAu]
    split
    · exact ⟨_, rfl, .inl ⟨_, rfl⟩⟩
    split
    · exact ⟨_, rfl, .inl ⟨_, rfl⟩⟩
    split
    · exact ⟨_, rfl, .inl ⟨_, rfl⟩⟩
    split
    · exact ⟨_, rfl, .inl ⟨_, rfl⟩⟩
    split
    · exact ⟨_, rfl, .inl ⟨_, rfl⟩⟩
    · rename_i h0 h1 h2 h3 h4
      simp only [Bool.not_eq_false, rangeFits_iff] at h1
      simp only [config_mtuMin, not_or, not_lt] at h3
      simp only [config_auMax] at h4
      exact ⟨_, rfl, .inr ⟨by simp_all, ⟨h1, by omega, h3.1, h3.2, by omega⟩, rfl⟩⟩
  | decPkt rsv m base size offset ts =>
    simp only [exec, execDecPkt]
    split
    · exact ⟨_, rfl, .inl ⟨_, rfl⟩⟩
    split
    · exact ⟨_, rfl, .inl ⟨_, rfl⟩⟩
    · rename_i h0 h1
      simp only [Bool.not_eq_false, rangeFits_iff] at h1
      exact ⟨_, rfl, .inr ⟨by simp_all, h1, rfl⟩⟩
  | decFlush rsv =>
    simp only [exec, execDecFlush]
    split
    · exact ⟨_, rfl, .inl ⟨_, rfl⟩⟩
    · exact ⟨_, rfl, .inr ⟨by simp_all, rfl⟩⟩

/-- The inversion lemma of `exec`. -/
theorem exec_inv {i : Instr} {s t : State} (h : exec i s = .next t) : Raises i s t ∨ Effect i s t := by
  obtain ⟨t', h', hc⟩ := exec_cases i s
  rw [h'] at h
  cases h
  exact hc

/-- The effect of an accepted ENC_AU happens. -/
theorem exec_encAu {s : State} {base size pfx dts : Word} (h : EncAccepts s base size pfx) :
    exec (.encAu 0 base size pfx dts) s =
      .next (advance (encodeAccepted (base.toNat + pfx.toNat) (size.toNat - pfx.toNat) dts s) 5) := by
  have h1 : ¬ rangeFits base size = false := by simpa [rangeFits_iff] using h.range
  have h2 := h.pfxLe; have h3 := h.mtu; have h4 := h.cycle; have h5 := h.short
  simp only [exec, execEncAu, config_mtuMin, config_auMax]
  rw [if_neg (by simp), if_neg h1, if_neg (by omega), if_neg (not_or.2 ⟨by omega, h4⟩), if_neg (by omega)]

/-- The effect of an in-range DEC_PKT happens. -/
theorem exec_decPkt {s : State} {m : Bool} {base size offset ts : Word} (h : base.toNat + size.toNat ≤ 2 ^ 32) :
    exec (.decPkt 0 m base size offset ts) s =
      .next (advance (decodeAccepted m base.toNat size.toNat offset.toNat ts s) 5) := by
  have h1 : ¬ rangeFits base size = false := by simpa [rangeFits_iff] using h
  simp only [exec, execDecPkt]
  rw [if_neg (by simp), if_neg h1]

/-! ### A step -/

/-- The inversion lemma of `step`: the decoded command, or the error entry of an opcode outside the map. -/
theorem step_inv {s t : State} (h : step s = .next t) :
    (∃ i, decode (pendingWords s) = .ok i ∧ exec i s = .next t) ∨
    (∃ op, decode (pendingWords s) = .error (.illegalOpcode op) ∧ t = takeError s .illegalOpcode op) := by
  unfold step at h
  split at h
  · rename_i i hi
    exact .inl ⟨i, hi, h⟩
  · rename_i r hr
    cases r with
    | noCommand => cases h
    | incomplete o => cases h
    | illegalOpcode op =>
      cases h
      exact .inr ⟨op, hr, rfl⟩

end Sys2Proof.Machine
end

