-- ==== Sys2Proof/Laws/PerInstr.lean ====
section
/-! SUPPORT. Statements made per instruction (LAWS.json names their families). -/

namespace Sys2Proof.Laws.EncodeLength

/-- Every encoding has as many words as OP alone says (30_encoding R88). -/
def Statement (i : Instr) : Prop := (encode i).length = commandWords i.op.code

theorem reset (rsv : BitVec 22) (enc dec : Bool) : Statement (.reset rsv enc dec) := rfl

theorem wrreg (rsv addr : BitVec 12) (data : Word) : Statement (.wrreg rsv addr data) := rfl

theorem rdreg (rsv addr : BitVec 12) : Statement (.rdreg rsv addr) := rfl

theorem encAu (rsv : BitVec 24) (base size pfx dts : Word) : Statement (.encAu rsv base size pfx dts) := rfl

theorem decPkt (rsv : BitVec 23) (m : Bool) (base size offset ts : Word) :
    Statement (.decPkt rsv m base size offset ts) := rfl

theorem decFlush (rsv : BitVec 24) : Statement (.decFlush rsv) := rfl

end Sys2Proof.Laws.EncodeLength
end

