-- ==== Sys2Proof/Tests/Slice0.lean ====
section
/-! SUPPORT. Tests of the model, with values from spec/95_test_vectors.md (the vector is named in each comment), and for
every obligation with hypotheses a state and operands that meet them. -/

namespace Sys2Proof.Tests

open Sys2Proof.Machine Sys2Proof.Claim

/-! ### Helpers -/

/-- The answer is a next state of which `p` holds. -/
def nextSat (r : Result) (p : State → Bool) : Bool :=
  match r with
  | .next t => p t
  | .fault _ => false
  | .refused _ => false

/-- The next state of an answer, else the state given. -/
def nextOr (r : Result) (s : State) : State :=
  match r with
  | .next t => t
  | .fault _ => s
  | .refused _ => s

/-- An instance of capacity 16, right after reset. -/
def small : State := State.resetWith 16

/-- It, with bytes in IMEM. -/
def smallMem (a : Nat) (bs : List Byte) : State := hostStore a bs small

/-- It, with words on the command port. -/
def smallPort (ws : List Word) : State := { small with stream := ws }

/-- An encoder configured as vector T5 has it, with the access unit 01 02 03 at 0x6000. -/
def encReady : State := { smallMem 0x6000 [0x01#8, 0x02#8, 0x03#8] with enc := { Enc.reset with mtu := 21, cycle := 1 } }

/-- An encoder that has accepted an access unit. -/
def encLocked : State := { encReady with enc := { encReady.enc with locked := true, auCnt := 1, fragCnt := 3 } }

/-- A locked decoder with configuration 0x123 that holds the bytes A0 to A4; the stale bytes of ACC are `x`. -/
def holdingWith (x : Byte) : State :=
  { small with dec := { small.dec with
      cfg := { valid := true, profile := 1, sfIndex := 4, channels := 2 }
      locked := true
      fill := 12
      ts := 100
      acc := [0xFF#8, 0xF1#8, 0x50#8, 0x80#8, 0x00#8, 0xFF#8, 0xFC#8, 0xA0#8, 0xA1#8, 0xA2#8, 0xA3#8, 0xA4#8,
        x, x, x, x] } }

/-- The same with stale bytes 00. -/
def holding : State := holdingWith 0x00#8

/-! ### Ill-formed instructions are refused by the check -/

theorem test_reset_reserved_ill_formed : (Instr.reset 1 true false).wellFormed = false := by decide
theorem test_wrreg_reserved_ill_formed : (Instr.wrreg 0x800#12 0x000#12 5#32).wellFormed = false := by decide
theorem test_rdreg_reserved_ill_formed : (Instr.rdreg 1 0x028#12).wellFormed = false := by decide
theorem test_encAu_reserved_ill_formed : (Instr.encAu 0x800000#24 0 0 0 0).wellFormed = false := by decide
theorem test_decPkt_reserved_ill_formed : (Instr.decPkt 1 true 0 0 0 0).wellFormed = false := by decide
theorem test_decFlush_reserved_ill_formed : (Instr.decFlush 0x100#24).wellFormed = false := by decide
theorem test_clear_reserved_well_formed : (Instr.decPkt 0 true 0 0 0 0).wellFormed = true := by decide

/-! ### Words written out from the formats of 30_encoding R82 to R89 -/

/-- Format U: OP 01, 22 reserved bits, UNIT = DEC ENC. -/
theorem test_decode_reset :
    decode [0b00000001_0000000000000000000000_10#32] = .ok (.reset 0 false true) := by rfl

/-- Format R: OP 02, 12 reserved bits, ADDR; DATA. -/
theorem test_decode_wrreg :
    decode [0b00000010_000000000000_000000001100#32, 0x261#32] = .ok (.wrreg 0 0x00C#12 0x261#32) := by rfl

/-- Format R: OP 03, 12 reserved bits, ADDR. -/
theorem test_decode_rdreg :
    decode [0b00000011_000000000000_000001000100#32] = .ok (.rdreg 0 0x044#12) := by rfl

/-- Format E: OP 10, 24 reserved bits; BASE, SIZE, PREFIX, DTS. -/
theorem test_decode_encAu :
    decode [0b00010000_000000000000000000000000#32, 1#32, 2#32, 3#32, 4#32] = .ok (.encAu 0 1#32 2#32 3#32 4#32) := by
  rfl

/-- Format D: OP 20, 23 reserved bits, M; BASE, SIZE, OFFSET, TS. -/
theorem test_decode_decPkt :
    decode [0b00100000_00000000000000000000000_1#32, 1#32, 2#32, 3#32, 4#32] =
      .ok (.decPkt 0 true 1#32 2#32 3#32 4#32) := by rfl

/-- Format Z: OP 21, 24 reserved bits. -/
theorem test_decode_decFlush : decode [0b00100001_000000000000000000000000#32] = .ok (.decFlush 0) := by rfl

/-- Reserved bits reach the instruction (30_encoding R97). -/
theorem test_decode_reserved :
    decode [0b00100001_000000000000000100000000#32] = .ok (.decFlush 0x100#24) := by rfl

/-- An operand word short (30_encoding R100). -/
theorem test_decode_incomplete : decode [0x10000000#32, 1#32, 2#32, 3#32] = .error (.incomplete .encAu) := by rfl

/-- An opcode outside the map (30_encoding R97). -/
theorem test_decode_illegal : decode [0x00000000#32] = .error (.illegalOpcode 0x00#8) := by rfl

/-- The host's word numbering: the command word is the low one. -/
theorem test_decodeTableWord :
    decodeTableWord 64 0x00000005_02000004 = some (.wrreg 0 0x004#12 5#32) := by rfl

theorem test_withFetchWord :
    nextSat (step (State.reset.withFetchWord 64 0x00000005_02000004)) (fun t => t.enc.cycle == 5#32 && t.cp == 2) = true := by
  decide

/-! ### RESET -/

/-- T15: `reset dec` while accumulating: FILL 7, DEC_STAT 0, no event, ERR unchanged. -/
theorem test_reset_dec :
    nextSat (exec (.reset 0 false true) holding)
      (fun t => t.dec.fill == 7 && regRead t .decStat == 0#32 && t.log == [] && t.dec.acc.take 7 == List.replicate 7 0x00#8) =
      true := by decide

/-- T15: `reset none`. -/
theorem test_reset_none : nextSat (exec (.reset 0 false false) holding) (fun t => t == { holding with cp := 1 }) = true := by
  decide

/-! ### WRREG -/

/-- T15: ENC_PARAM takes 0x5678: PT 0x78, INTERLEAVED 0x56. -/
theorem test_wrreg_masked :
    nextSat (exec (.wrreg 0 0x00C#12 0x12345678#32) small)
      (fun t => t.enc.pt == 0x78#8 && t.enc.interleaved == 0x56#8 && regRead t .encParam == 0x5678#32) = true := by decide

/-- T15: ENC locked: `wrreg ENC_CYCLE, 9` is CFG_LOCKED, ERR = 0x0205. -/
theorem test_wrreg_locked :
    nextSat (exec (.wrreg 0 0x004#12 9#32) encLocked)
      (fun t => regRead t .err == 0x0205#32 && t.enc.cycle == 1#32 && t.cp == 2) = true := by decide

/-! ### RDREG -/

/-- T15: `rdreg DEC_FILL` after reset is RESP(7). -/
theorem test_rdreg_fill : nextSat (exec (.rdreg 0 0x028#12) small) (fun t => t.log == [.resp 7#32]) = true := by decide

/-- T15: `rdreg 0x046` is RESP(0), ERR = 0x0303. -/
theorem test_rdreg_bad :
    nextSat (exec (.rdreg 0 0x046#12) small) (fun t => t.log == [.resp 0#32] && regRead t .err == 0x0303#32) = true := by
  decide

/-! ### ENC_AU -/

/-- T5: three fragments of one byte, the last with the marker. -/
theorem test_encAu_splits :
    nextSat (exec (.encAu 0 0x6000#32 3#32 0#32 7#32) encReady)
      (fun t => t.log.filterMap Event.frag? ==
        [{ payload := [0x00#8, 0x10#8, 0x00#8, 0x18#8, 0x01#8], len := 5, marker := false, ts := 0 },
         { payload := [0x00#8, 0x10#8, 0x00#8, 0x18#8, 0x02#8], len := 5, marker := false, ts := 0 },
         { payload := [0x00#8, 0x10#8, 0x00#8, 0x18#8, 0x03#8], len := 5, marker := true, ts := 0 }]) = true := by decide

/-- T4: ENC_BAD_PREFIX comes before the configuration check, ERR = 0x1007. -/
theorem test_encAu_priority :
    nextSat (exec (.encAu 0 0#32 5#32 6#32 0#32) small) (fun t => regRead t .err == 0x1007#32 && t.cp == 5) = true := by
  decide

/-! ### DEC_PKT -/

/-- T7: two AU-headers: DEC_MULTI_CNT counts, AB CD is appended as one access unit. -/
theorem test_decPkt_multi :
    nextSat (exec (.decPkt 0 false 0x100#32 8#32 0#32 9#32)
        (smallMem 0x100 [0x00#8, 0x20#8, 0x00#8, 0x08#8, 0x00#8, 0x08#8, 0xAB#8, 0xCD#8]))
      (fun t => t.dec.multiCnt == 1#32 && t.dec.held == [0xAB#8, 0xCD#8] && t.dec.fill == 9 && t.dec.ts == 9#32 &&
        regRead t .decStat == 7#32) = true := by decide

/-- T9, at C = 16 (chunk limit 9): 20 bytes are chunks of 9, 9 and 2; the marker flushes the last: three access units. -/
theorem test_decPkt_chunks :
    nextSat (exec (.decPkt 0 true 0x100#32 22#32 0#32 5#32)
        (smallMem 0x102 ((List.range 20).map (fun k => BitVec.ofNat 8 (k + 1)))))
      (fun t => (t.log.filterMap Event.au?).map (fun a => (a.len, a.bytes.drop 7, a.ts)) ==
          [(16, (List.range 9).map (fun k => BitVec.ofNat 8 (k + 1)), 5#32),
           (16, (List.range 9).map (fun k => BitVec.ofNat 8 (k + 10)), 5#32), (9, [0x13#8, 0x14#8], 5#32)] &&
        t.dec.ovfCnt == 2#32 && t.dec.auCnt == 3#32 && t.dec.fill == 7 && regRead t .decStat == 3#32) = true := by decide

/-! ### DEC_FLUSH -/

/-- V4: nothing held: no event; the lock is taken, with the warning. -/
theorem test_decFlush_empty :
    nextSat (exec (.decFlush 0) small)
      (fun t => t == { small with cp := 1, dec := { small.dec with locked := true, warnNoCfg := true } }) = true := by decide

/-- The header of 41_decoder R141 for a length of 12 (0x0C): byte 4 = 12 >> 3 = 01, byte 5 = (12 & 7) << 5 | 1F = 9F. -/
theorem test_decFlush_held :
    nextSat (exec (.decFlush 0) holding)
      (fun t => t.log == [.au
        { bytes := [0xFF#8, 0xF1#8, 0x50#8, 0x80#8, 0x01#8, 0x9F#8, 0xFC#8, 0xA0#8, 0xA1#8, 0xA2#8, 0xA3#8, 0xA4#8]
          len := 12, ts := 100 }] && t.dec.fill == 7 && t.dec.auCnt == 1#32) = true := by decide

/-! ### Header blocks -/

/-- T1. -/
theorem test_auHdr : auHdr 2000 = [0x00#8, 0x10#8, 0x3E#8, 0x80#8] ∧ auHdr 8191 = [0x00#8, 0x10#8, 0xFF#8, 0xF8#8] := by
  decide

/-- T12. -/
theorem test_adts :
    adts 1 4 2 2007 = [0xFF#8, 0xF1#8, 0x50#8, 0x80#8, 0xFA#8, 0xFF#8, 0xFC#8] ∧
    adts 3 15 7 8191 = [0xFF#8, 0xF1#8, 0xFD#8, 0xC3#8, 0xFF#8, 0xFF#8, 0xFC#8] ∧
    adts 2 8 6 2055 = [0xFF#8, 0xF1#8, 0xA1#8, 0x81#8, 0x00#8, 0xFF#8, 0xFC#8] := by decide

/-! ### The assembler and several instances -/

/-- 30_encoding R101, R102: names and numbers, a prefix comment, and a line that is of no form. -/
theorem test_assemble :
    assemble "dec.cfg 1, 4, 2 ; x\n\nrdreg ERR\n.word 0x02100000, 5" =
      some [0x02000020#32, 0x123#32, 0x03000044#32, 0x02100000#32, 5#32] ∧ assemble "enc.au 1, 2" = none := by decide

/-- 60_exceptions R192: instance 1 steps, instance 0 keeps its state. -/
theorem test_system :
    ((System.hostAppendAt 1 [0x01000000#32] (System.powerOn 2 16)).stepAt 1).cores.map State.cp = [0, 1] := by decide

/-! ### Witnesses for the hypotheses of the obligations -/

/-- An invariant state with nothing held. -/
theorem witness_inv_empty : small.Inv :=
  ⟨by decide, by decide, by decide, by decide, by decide, by decide, by decide, by decide, by decide, by decide, by decide,
    by intro e he; cases he⟩

/-- Invariant states with payload held, whatever the stale bytes. -/
theorem witness_inv_holding : holding.Inv ∧ (holdingWith 0x77#8).Inv :=
  ⟨⟨by decide, by decide, by decide, by decide, by decide, by decide, by decide, by decide, by decide, by decide, by decide,
      by intro e he; cases he⟩,
    ⟨by decide, by decide, by decide, by decide, by decide, by decide, by decide, by decide, by decide, by decide, by decide,
      by intro e he; cases he⟩⟩

/-- EncodeReadsDecode, StepRunsDecodedInstruction, StepConsumesCommandLength, StepAppendsToLogOnly, StepKeepsInvariant: a
step on a decoded command. -/
theorem witness_step :
    decode ((smallPort [0x03000028#32]).stream.drop (smallPort [0x03000028#32]).cp) = .ok (.rdreg 0 0x028#12) ∧
    (smallPort [0x03000028#32]).stream[(smallPort [0x03000028#32]).cp]? = some 0x03000028#32 ∧
    ∃ t, step (smallPort [0x03000028#32]) = .next t := ⟨rfl, rfl, _, rfl⟩

theorem witness_step_inv : (smallPort [0x03000028#32]).Inv ∧ ∃ t, step (smallPort [0x03000028#32]) = .next t :=
  ⟨⟨by decide, by decide, by decide, by decide, by decide, by decide, by decide, by decide, by decide, by decide, by decide,
    by intro e he; cases he⟩, _, rfl⟩

/-- StepWaitsForAllWords: no word; and one word short of an ENC_AU and of a WRREG. -/
theorem witness_waits :
    small.stream.length ≤ small.cp ∧
    (let s := smallPort [0x10000000#32, 1#32, 2#32, 3#32]
     s.stream[s.cp]? = some 0x10000000#32 ∧ s.stream.length < s.cp + lengthOf (0x10000000 / 2 ^ 24)) ∧
    (let s := smallPort [0x02000000#32]
     s.stream[s.cp]? = some 0x02000000#32 ∧ s.stream.length < s.cp + lengthOf (0x02000000 / 2 ^ 24)) := by decide

/-- ErrorsArePreciseAndPrioritised, first clause: each error at the least operand that raises it. -/
theorem witness_errors :
    expectedError (.reset 1 false false) small = some 0x02#8 ∧
    expectedError (.wrreg 0 0x001#12 5#32) small = some 0x03#8 ∧
    expectedError (.wrreg 0 0x048#12 5#32) small = some 0x03#8 ∧
    expectedError (.wrreg 0 0x014#12 1#32) small = some 0x04#8 ∧
    expectedError (.wrreg 0 0x040#12 1#32) small = some 0x04#8 ∧
    expectedError (.wrreg 0 0x010#12 9#32) encLocked = some 0x05#8 ∧
    expectedError (.wrreg 0 0x020#12 9#32) holding = some 0x05#8 ∧
    expectedError (.rdreg 0 0x045#12) small = some 0x03#8 ∧
    expectedError (.encAu 0 0xFFFFFFF0#32 0x11#32 40#32 0#32) small = some 0x09#8 ∧
    expectedError (.encAu 0 0xFFFFFFF0#32 0x10#32 0x11#32 0#32) small = some 0x07#8 ∧
    expectedError (.encAu 0 0#32 8192#32 0#32 0#32) small = some 0x06#8 ∧
    expectedError (.encAu 0 0#32 8192#32 0#32 0#32) encReady = some 0x08#8 ∧
    expectedError (.decPkt 0 false 0xFFFFFFFF#32 2#32 0#32 0#32) small = some 0x09#8 ∧
    expectedError (.decFlush 0x100#24) small = some 0x02#8 := by decide

/-- Second clause, beside the same limits; and the third. -/
theorem witness_no_error :
    expectedError (.wrreg 0 0x020#12 0x123#32) encLocked = none ∧
    expectedError (.wrreg 0 0x044#12 0x123#32) encLocked = none ∧
    expectedError (.rdreg 0 0x044#12) small = none ∧
    expectedError (.encAu 0 0xFFFFFFF0#32 0x10#32 0x10#32 0#32) encReady = none ∧
    expectedError (.encAu 0 0#32 8193#32 2#32 0#32) encReady = none ∧
    expectedError (.decPkt 0 false 0xFFFFFFFE#32 2#32 0#32 0#32) small = none ∧
    expectedError (.decFlush 0) small = none ∧
    (smallPort [0x00000000#32]).stream[(smallPort [0x00000000#32]).cp]? = some 0x00000000#32 ∧
    (0x00000000#32).toNat / 2 ^ 24 ∉ [0x01, 0x02, 0x03, 0x10, 0x20, 0x21] := by decide

/-- ResetCommandResult, RdregAnswersOnce, DecFlushResult: reserved bits; register addresses at the ends of the map. -/
theorem witness_control :
    (1 : BitVec 22) ≠ 0 ∧ (0x800#12 : BitVec 12) ≠ 0 ∧ (0x800000#24 : BitVec 24) ≠ 0 ∧
    ((0x000#12).toNat, small.enc.mtu.toNat) ∈
      [(0x000, small.enc.mtu.toNat), (0x044, small.err.code.toNat + small.err.op.toNat * 2 ^ 8)] ∧
    ((0x044#12).toNat, small.err.code.toNat + small.err.op.toNat * 2 ^ 8) ∈
      [(0x000, small.enc.mtu.toNat), (0x044, small.err.code.toNat + small.err.op.toNat * 2 ^ 8)] ∧
    ((0x043#12).toNat % 4 ≠ 0 ∨ (0x043#12).toNat > 0x044) ∧ ((0x048#12).toNat % 4 ≠ 0 ∨ (0x048#12).toNat > 0x044) := by
  decide

/-- WrregStoresConfiguration, RegisterReadsMaskedWrite: both units in their construction windows. -/
theorem witness_window :
    small.enc.locked = false ∧ small.dec.locked = false ∧
    (Reg.decCfg, 0x000003FF#32) ∈ [(Reg.encMtu, 0x0000FFFF#32), (Reg.encCycle, 0xFFFFFFFF#32), (Reg.encSsrc, 0xFFFFFFFF#32),
      (Reg.encParam, 0x0000FFFF#32), (Reg.encSrate, 0xFFFFFFFF#32), (Reg.decCfg, 0x000003FF#32)] ∧
    (if Reg.decCfg = .decCfg then small.dec.locked else small.enc.locked) = false ∧
    (if Reg.encMtu = .decCfg then holding.dec.locked else holding.enc.locked) = false := by decide

/-- EncAuEmitsTheFragments, FragmentsCoverTheAccessUnit: the longest access unit, the last bytes of IMEM, the least MTU and
cycle; and an empty access unit. -/
theorem witness_enc_accepts :
    EncAccepts encReady 0xFFFFDFFF#32 0x2001#32 2#32 ∧ EncAccepts encReady 0xFFFFFFF0#32 0x10#32 0x10#32 :=
  ⟨⟨by decide, by decide, by decide, by decide, by decide⟩, ⟨by decide, by decide, by decide, by decide, by decide⟩⟩

/-- EncAuIsPure: two states alike in what the encoder reads, different in all else. -/
theorem witness_pure :
    encReady.enc.mtu = encLocked.enc.mtu ∧ encReady.enc.cycle = encLocked.enc.cycle ∧ encReady ≠ encLocked ∧
    encReady.imem = encLocked.imem ∧ (∃ t, exec (.encAu 0 0x6000#32 3#32 0#32 7#32) encReady = .next t) ∧
    ∃ t, exec (.encAu 0 0x6000#32 3#32 0#32 7#32) encLocked = .next t :=
  ⟨rfl, rfl, by decide, rfl, ⟨_, rfl⟩, ⟨_, rfl⟩⟩

/-- AuHeaderHoldsTheLength, ResetMeetsInvariant: the ends of the ranges. -/
theorem witness_ranges : (0 ≤ 8191 ∧ 8191 ≤ 8191) ∧ (8 ≤ 8 ∧ 8 ≤ 8191) ∧ (8 ≤ 8191 ∧ 8191 ≤ 8191) := by decide

/-- DecPktAppendsChunkByChunk, DecPktConservesBytes: an invariant state that holds payload, and a fragment whose region
fills it exactly, of two bytes, at the end of IMEM; and one with data that overflows the accumulator. -/
theorem witness_fragment :
    holding.Inv ∧ FragmentWellFormed holding 0xFFFFFFFE#32 2#32 0#32 ∧ FragmentWellFormed holding 0x100#32 40#32 12#32 ∧
      12 < (fragmentData holding 0x100#32 40#32 12#32).length :=
  ⟨witness_inv_holding.1, ⟨by decide, by decide, by decide, by decide⟩, ⟨by decide, by decide, by decide, by decide⟩,
    by decide⟩

/-- DecPktDropsMalformed: each of its three cases at its limit (T7), in range. -/
theorem witness_malformed :
    (let s := smallMem 0x100 [0x00#8, 0x10#8]
     ((0x100#32).toNat + (5#32).toNat ≤ 2 ^ 32 ∧ (6#32).toNat > (5#32).toNat) ∧
     ((0xFFFFFFFF#32).toNat + (1#32).toNat ≤ 2 ^ 32 ∧ (1#32).toNat - (0#32).toNat < 2) ∧
     ((0x100#32).toNat + (2#32).toNat ≤ 2 ^ 32 ∧
       2 + 2 * countAt s ((0x100#32).toNat + (0#32).toNat) > (2#32).toNat - (0#32).toNat)) := by decide

/-- DecPktEmissionBound: an accepted packet, whose data fits one chunk. -/
theorem witness_bound :
    holding.Inv ∧ (∃ t, exec (.decPkt 0 true 0x100#32 11#32 0#32 5#32) holding = .next t) ∧
      (fragmentData holding 0x100#32 11#32 0#32).length ≤ holding.dec.cap - 7 :=
  ⟨witness_inv_holding.1, ⟨_, rfl⟩, by decide⟩

/-- DecFlushResult: both fills. -/
theorem witness_flush : (small.Inv ∧ small.dec.fill = 7) ∧ holding.Inv ∧ 7 < holding.dec.fill :=
  ⟨⟨witness_inv_empty, by decide⟩, witness_inv_holding.1, by decide⟩

/-- AppendChunkResult: an exact fit, and one byte more (T10). -/
theorem witness_append :
    holding.Inv ∧
    (List.replicate 4 0x11#8).length ≤ holding.dec.cap - 7 ∧
    holding.dec.fill + (List.replicate 4 0x11#8).length ≤ holding.dec.cap ∧
    (List.replicate 5 0x11#8).length ≤ holding.dec.cap - 7 ∧
    holding.dec.fill + (List.replicate 5 0x11#8).length > holding.dec.cap :=
  ⟨witness_inv_holding.1, by decide, by decide, by decide, by decide⟩

/-- An encoder of cap = 2, for the access unit 01 02 03: two fragments. -/
def encTwo : State := { encReady with enc := { encReady.enc with mtu := 22 } }

/-- Its fragments, each in an IMEM of its own behind a header the decoder skips. -/
def deliveries : List Delivery :=
  [{ frag := { payload := [0x00#8, 0x10#8, 0x00#8, 0x18#8, 0x01#8, 0x02#8], len := 6, marker := false, ts := 0 }
     imem := (smallMem 0x201 [0x10#8, 0x00#8, 0x18#8, 0x01#8, 0x02#8]).imem
     base := 0x1FC, size := 10, offset := 4, ts := 90 },
   { frag := { payload := [0x00#8, 0x10#8, 0x00#8, 0x18#8, 0x03#8], len := 5, marker := true, ts := 0 }
     imem := (smallMem 0xFFFFFFFC [0x10#8, 0x00#8, 0x18#8, 0x03#8]).imem
     base := 0xFFFFFFFB, size := 5, offset := 0, ts := 91 }]

/-- RoundTripRestoresTheAccessUnit: all its hypotheses together. -/
theorem witness_round_trip :
    EncAccepts encTwo 0x6000#32 3#32 0#32 ∧ 1 ≤ (3#32).toNat - (0#32).toNat ∧
    (∃ e', exec (.encAu 0 0x6000#32 3#32 0#32 7#32) encTwo = .next e' ∧
      deliveries.map Delivery.frag = (newEvents encTwo e').filterMap Event.frag?) ∧
    small.Inv ∧ small.dec.fill = 7 ∧ (3#32).toNat - (0#32).toNat + 7 ≤ small.dec.cap ∧
    (∀ x ∈ deliveries, x.carries small) ∧ ∃ last, deliveries.getLast? = some last := by
  refine ⟨⟨by decide, by decide, by decide, by decide, by decide⟩, by decide, ⟨_, rfl, by decide⟩, witness_inv_empty,
    by decide, by decide, ?_, ⟨_, rfl⟩⟩
  intro x hx
  simp only [deliveries, List.mem_cons, List.not_mem_nil, or_false] at hx
  rcases hx with rfl | rfl
  · exact ⟨by decide, by decide, by decide, by decide⟩
  · exact ⟨by decide, by decide, by decide, by decide⟩

/-- EveryReachableStateIsSound: a run with a host move and a step that locks the decoder without a configuration. -/
theorem witness_reachable :
    ∃ t, Reachable t ∧ t.dec.locked = true ∧ t.dec.cfg.valid = false :=
  ⟨nextOr (step (hostAppend [0x21000000#32] small)) small,
    .core (.hostAppend [0x21000000#32] (.reset 16 (by decide))) (by rfl), by decide, by decide⟩

/-- LocksGuardConfiguration, UnitsAreIndependent, CountersCountEvents: both units, unlocked and locked, with a command that
completes. -/
theorem witness_units :
    (encReady.enc.locked = false ∧ ∃ t, exec (.encAu 0 0x6000#32 3#32 0#32 7#32) encReady = .next t ∧ t.enc.locked = true) ∧
    (encLocked.enc.locked = true ∧ ∃ t, exec (.encAu 0 0x6000#32 3#32 0#32 7#32) encLocked = .next t) ∧
    (small.dec.locked = false ∧ ∃ t, exec (.decFlush 0) small = .next t ∧ t.dec.locked = true) ∧
    (holding.dec.locked = true ∧ ∃ t, exec (.decFlush 0) holding = .next t) ∧
    opByte (.encAu 0 0x6000#32 3#32 0#32 7#32) ∈ [0x10#8, 0x03#8] ∧ opByte (.decFlush 0) ∈ [0x20#8, 0x21#8, 0x03#8] ∧
    (∀ dec, Instr.encAu 0 0x6000#32 3#32 0#32 7#32 ≠ .reset 0 true dec) ∧ (∀ enc, Instr.decFlush 0 ≠ .reset 0 enc true) :=
  ⟨⟨rfl, _, rfl, rfl⟩, ⟨rfl, _, rfl⟩, ⟨rfl, _, rfl, rfl⟩, ⟨rfl, _, rfl⟩, by decide, by decide, by decide, by decide⟩

/-- LocksGuardConfiguration, its clauses about WARN_NO_CFG: a decoder unlocked before and after, by a command and by a reset;
and one that the lock leaves with the warning. -/
theorem witness_warning :
    small.Inv ∧ small.dec.locked = false ∧ (∃ t, exec (.rdreg 0 0x024#12) small = .next t ∧ t.dec.locked = false) ∧
    (∃ t, exec (.reset 0 false true) small = .next t ∧ t.dec.locked = false) ∧
    ∃ t, exec (.decFlush 0) small = .next t ∧ t.dec.warnNoCfg = true :=
  ⟨witness_inv_empty, rfl, ⟨_, rfl, rfl⟩, ⟨_, rfl, rfl⟩, _, rfl, rfl⟩

/-- UnitsAreIndependent, the control commands: a register of each unit, and a reset of one. -/
theorem witness_units_control :
    (∃ t, exec (.wrreg 0 0x010#12 5#32) small = .next t ∧ (0x010#12).toNat ≠ 0x020) ∧
    (∃ t, exec (.wrreg 0 0x020#12 5#32) small = .next t ∧ (0x020#12).toNat ≥ 0x014) ∧
    (∃ t, exec (.reset 0 true false) small = .next t) ∧ ∃ t, exec (.reset 0 false true) small = .next t :=
  ⟨⟨_, rfl, by decide⟩, ⟨_, rfl, by decide⟩, ⟨_, rfl⟩, ⟨_, rfl⟩⟩

/-- FlushIsTheOnlyWayBack: a command after which FILL is smaller. -/
theorem witness_way_back : ∃ t, exec (.decFlush 0) holding = .next t ∧ t.dec.fill < holding.dec.fill :=
  ⟨_, rfl, by decide⟩

/-- StaleAccumulatorIsUnobservable: two different states that meet all hypotheses, with a step that completes and one that
waits. -/
theorem witness_stale :
    holding.Inv ∧ (holdingWith 0x77#8).Inv ∧ SameButStale holding (holdingWith 0x77#8) ∧ holding ≠ holdingWith 0x77#8 ∧
    step holding = .fault .endOfStream :=
  ⟨witness_inv_holding.1, witness_inv_holding.2, ⟨by decide, by decide, by decide⟩, by decide, rfl⟩

theorem witness_stale_step :
    (hostAppend [0x21000000#32] holding).Inv ∧ (hostAppend [0x21000000#32] (holdingWith 0x77#8)).Inv ∧
    SameButStale (hostAppend [0x21000000#32] holding) (hostAppend [0x21000000#32] (holdingWith 0x77#8)) ∧
    ∃ t, step (hostAppend [0x21000000#32] holding) = .next t :=
  ⟨⟨by decide, by decide, by decide, by decide, by decide, by decide, by decide, by decide, by decide, by decide, by decide,
      by intro e he; cases he⟩,
    ⟨by decide, by decide, by decide, by decide, by decide, by decide, by decide, by decide, by decide, by decide, by decide,
      by intro e he; cases he⟩,
    ⟨by decide, by decide, by decide⟩, _, rfl⟩

/-- EqualMemoriesAreEqualData: two orders of writing the same bytes, one of which a later 00 removes again. -/
theorem witness_memories :
    Memory.wf (Memory.set (Memory.set [] 4 0x11#8) 2 0x22#8) ∧
    Memory.wf (Memory.set (Memory.set (Memory.set (Memory.set [] 2 0x22#8) 3 0x33#8) 3 0x00#8) 4 0x11#8) ∧
    Memory.set (Memory.set [] 4 0x11#8) 2 0x22#8 =
      Memory.set (Memory.set (Memory.set (Memory.set [] 2 0x22#8) 3 0x33#8) 3 0x00#8) 4 0x11#8 := by decide

/-- InstancesAreIndependent: two instances, each with a command to execute. -/
theorem witness_instances : (0 : Nat) ≠ 1 ∧
    (System.hostAppendAt 0 [0x01000000#32] (System.hostAppendAt 1 [0x01000000#32] (System.powerOn 2 16))).cores.length = 2 := by
  decide

end Sys2Proof.Tests
end

section
/-! Proofs of the statements of 00_scope: what a step is (R18), and that the two units share no state (R2). First the
frame of each part of the meanings, then the frame of each command's effect, then the statements. -/

namespace Sys2Proof.Machine

/-! ### Frames of the parts of the meanings -/

/-- RESET without UNIT[0] leaves the encoder (42_control R160). -/
@[simp] theorem resetUnits_false_enc (dec : Bool) (s : State) : (resetUnits false dec s).enc = s.enc := by
  cases dec <;> rfl

/-- RESET without UNIT[1] leaves the decoder (42_control R160). -/
@[simp] theorem resetUnits_false_dec (enc : Bool) (s : State) : (resetUnits enc false s).dec = s.dec := by
  cases enc <;> rfl

theorem Reg.addr_of_ofAddr {a : BitVec 12} {r : Reg} (h : Reg.ofAddr a = some r) : r.addr = a := by
  simpa using List.find?_some h

/-- DEC_CFG, at 0x020, is the only register whose write reaches the decoder. -/
theorem regWrite_dec {r : Reg} (h : r.addr.toNat ≠ 0x020) (s : State) (v : Word) : (regWrite s r v).dec = s.dec := by
  cases r with
  | decCfg => exact absurd rfl h
  | _ => rfl

/-- The registers from ENC_STAT, at 0x014, upward are none whose write reaches the encoder. -/
theorem regWrite_enc {r : Reg} (h : 0x014 ≤ r.addr.toNat) (s : State) (v : Word) : (regWrite s r v).enc = s.enc := by
  cases r with
  | encMtu | encCycle | encSsrc | encParam | encSrate => exact absurd h (by decide)
  | _ => rfl

theorem encodeAccepted_dec {s : State} (hm : 21 ≤ s.enc.mtu.toNat) (src l : Nat) (dts : Word) :
    (encodeAccepted src l dts s).dec = s.dec := by
  rw [encodeAccepted_eq hm]

@[simp] theorem decodeAccepted_enc (m : Bool) (base size offset : Nat) (ts : Word) (s : State) :
    (decodeAccepted m base size offset ts s).enc = s.enc :=
  decodeAccepted_induction (P := fun t => t.enc = s.enc) (by simp) (by simp) (by simp) (by simp) (by simp)

/-! ### Frames of the commands -/

variable {s t : State}

/-- The error entry leaves both units (60_exceptions R183), also after RDREG's RESP(0). -/
theorem Raises.units {i : Instr} (h : Raises i s t) : t.enc = s.enc ∧ t.dec = s.dec := by
  obtain ⟨e, rfl⟩ := h
  split <;> simp

theorem Effect.reset_enc {rsv : BitVec 22} {dec : Bool} (h : Effect (.reset rsv false dec) s t) : t.enc = s.enc := by
  obtain ⟨-, rfl⟩ := h
  simp

theorem Effect.reset_dec {rsv : BitVec 22} {enc : Bool} (h : Effect (.reset rsv enc false) s t) : t.dec = s.dec := by
  obtain ⟨-, rfl⟩ := h
  simp

theorem Effect.wrreg_dec {rsv addr : BitVec 12} {data : Word} (h : Effect (.wrreg rsv addr data) s t)
    (ha : addr.toNat ≠ 0x020) : t.dec = s.dec := by
  obtain ⟨-, ⟨-, rfl⟩ | ⟨r, u, hr, -, -, rfl⟩⟩ := h
  · rfl
  · obtain rfl := Reg.addr_of_ofAddr hr
    exact regWrite_dec ha s _

theorem Effect.wrreg_enc {rsv addr : BitVec 12} {data : Word} (h : Effect (.wrreg rsv addr data) s t)
    (ha : 0x014 ≤ addr.toNat) : t.enc = s.enc := by
  obtain ⟨-, ⟨-, rfl⟩ | ⟨r, u, hr, -, -, rfl⟩⟩ := h
  · rfl
  · obtain rfl := Reg.addr_of_ofAddr hr
    exact regWrite_enc ha s _

theorem Effect.rdreg_units {rsv addr : BitVec 12} (h : Effect (.rdreg rsv addr) s t) :
    t.enc = s.enc ∧ t.dec = s.dec := by
  obtain ⟨-, r, -, rfl⟩ := h
  exact ⟨rfl, rfl⟩

theorem Effect.encAu_dec {rsv : BitVec 24} {base size pfx dts : Word} (h : Effect (.encAu rsv base size pfx dts) s t) :
    t.dec = s.dec := by
  obtain ⟨-, hacc, rfl⟩ := h
  exact encodeAccepted_dec hacc.mtu _ _ _

theorem Effect.decPkt_enc {rsv : BitVec 23} {m : Bool} {base size offset ts : Word}
    (h : Effect (.decPkt rsv m base size offset ts) s t) : t.enc = s.enc := by
  obtain ⟨-, -, rfl⟩ := h
  simp

theorem Effect.decFlush_enc {rsv : BitVec 24} (h : Effect (.decFlush rsv) s t) : t.enc = s.enc := by
  obtain ⟨-, rfl⟩ := h
  simp

/-- When the words at `cp` decode, the step is the meaning of what they decode to. -/
theorem step_of_decode {i : Instr} (h : decode (pendingWords s) = .ok i) : step s = exec i s := by
  simp only [step, h]

end Sys2Proof.Machine

namespace Sys2Proof.Proofs

open Sys2Proof.Machine Sys2Proof.Claim

/-- Settles O4: `pendingWords` is the stream from `cp` on. -/
theorem stepRunsDecodedInstruction : Obligations.StepRunsDecodedInstruction :=
  fun _ _ h => step_of_decode h

/-- Settles O31: an error leaves both units; otherwise the frame of the command's effect says what it leaves. -/
theorem unitsAreIndependent : Obligations.UnitsAreIndependent := by
  intro i s t h
  obtain hraise | heffect := exec_inv h
  · obtain ⟨henc, hdec⟩ := hraise.units
    exact ⟨fun _ => hdec, fun _ => henc, fun _ _ _ _ => ⟨fun _ => hdec, fun _ => henc⟩,
      fun _ _ _ _ => ⟨fun _ => henc, fun _ => hdec⟩⟩
  refine ⟨fun hop => ?_, fun hop => ?_, ?_, ?_⟩
  · cases i with
    | encAu => exact heffect.encAu_dec
    | rdreg => exact heffect.rdreg_units.2
    | _ => simp [opByte] at hop
  · cases i with
    | decPkt => exact heffect.decPkt_enc
    | decFlush => exact heffect.decFlush_enc
    | rdreg => exact heffect.rdreg_units.1
    | _ => simp [opByte] at hop
  · rintro rsv addr data rfl
    exact ⟨heffect.wrreg_dec, heffect.wrreg_enc⟩
  · rintro rsv enc dec rfl
    exact ⟨by rintro rfl; exact heffect.reset_enc, by rintro rfl; exact heffect.reset_dec⟩

end Sys2Proof.Proofs
end

section
/-! What the parts of the meanings do to the decoder unit: the setup fields, which only LOCK_DEC, WRREG and the resets
change, and the access units emitted, counted and taken out of the accumulator. -/

namespace Sys2Proof.Machine

open Sys2Proof.Claim

variable {s t u : State}

/-! ### The setup fields -/

/-- The decoder's fields that no operation on the accumulator changes (10_state R30, R31, R33, R36). -/
def Dec.setup (d : Dec) : DecCfg × Bool × Bool × Nat := (d.cfg, d.locked, d.warnNoCfg, d.cap)

theorem Dec.setup_eq_iff {d e : Dec} :
    d.setup = e.setup ↔ d.cfg = e.cfg ∧ d.locked = e.locked ∧ d.warnNoCfg = e.warnNoCfg ∧ d.cap = e.cap := by
  simp [Dec.setup]

theorem finalize_setup (s : State) : (finalize s).dec.setup = s.dec.setup := by
  unfold finalize
  split <;> rfl

theorem appendChunk_setup (s : State) (bs : List Byte) (ts : Word) :
    (appendChunk s bs ts).dec.setup = s.dec.setup := by
  unfold appendChunk
  split
  · exact finalize_setup { s with dec := { s.dec with ovfCnt := countUp s.dec.ovfCnt } }
  · rfl

theorem noteMultiAu_setup (n : Nat) (s : State) : (noteMultiAu n s).dec.setup = s.dec.setup := by
  unfold noteMultiAu
  split <;> rfl

theorem noteMultiAu_cap (n : Nat) (s : State) : (noteMultiAu n s).dec.cap = s.dec.cap := by
  unfold noteMultiAu
  split <;> rfl

/-- DEC_PKT's accepted part leaves the setup as LOCK_DEC makes it (41_decoder R131, R134). -/
theorem decodeAccepted_setup (m : Bool) (base size offset : Nat) (ts : Word) (s : State) :
    (decodeAccepted m base size offset ts s).dec.setup = (lockDec s).dec.setup :=
  decodeAccepted_induction (P := fun t => t.dec.setup = (lockDec s).dec.setup) rfl (fun _ h => h)
    (fun _ _ h => (noteMultiAu_setup ..).trans h) (fun _ _ _ h => (appendChunk_setup ..).trans h)
    (fun _ h => (finalize_setup _).trans h)

/-! ### LOCK_DEC -/

@[simp] theorem lockDec_dec (s : State) : (lockDec s).dec = lockedDec s.dec := by
  unfold lockDec lockedDec
  split
  · rfl
  · cases s.dec.cfg.valid <;> simp

variable (d : Dec)

@[simp] theorem lockedDec_locked : (lockedDec d).locked = true := by
  unfold lockedDec
  split
  · assumption
  · rfl

@[simp] theorem lockedDec_cfg : (lockedDec d).cfg = d.cfg := by unfold lockedDec; split <;> rfl
@[simp] theorem lockedDec_cap : (lockedDec d).cap = d.cap := by unfold lockedDec; split <;> rfl
@[simp] theorem lockedDec_fill : (lockedDec d).fill = d.fill := by unfold lockedDec; split <;> rfl
@[simp] theorem lockedDec_acc : (lockedDec d).acc = d.acc := by unfold lockedDec; split <;> rfl
@[simp] theorem lockedDec_auCnt : (lockedDec d).auCnt = d.auCnt := by unfold lockedDec; split <;> rfl

theorem lockedDec_of_locked {d : Dec} (h : d.locked = true) : lockedDec d = d := by simp [lockedDec, h]

theorem lockedDec_of_unlocked {d : Dec} (h : d.locked = false) :
    lockedDec d = { d with locked := true, warnNoCfg := d.warnNoCfg || !d.cfg.valid } := by simp [lockedDec, h]

/-! ### The access units emitted -/

/-- From `s` to `t` access units are emitted and counted, nothing else is emitted, and FILL falls only if there is one
(10_state R37, R45). -/
def EmitsAus (s t : State) : Prop :=
  ∃ aus : List Au, t.log = s.log ++ aus.map Event.au ∧ t.dec.auCnt = s.dec.auCnt + BitVec.ofNat 32 aus.length ∧
    (aus = [] → s.dec.fill ≤ t.dec.fill)

theorem EmitsAus.of_none (hlog : t.log = s.log) (hcnt : t.dec.auCnt = s.dec.auCnt) (hfill : s.dec.fill ≤ t.dec.fill) :
    EmitsAus s t :=
  ⟨[], by simpa using hlog, by simpa using hcnt, fun _ => hfill⟩

theorem EmitsAus.trans (h : EmitsAus s t) (h' : EmitsAus t u) : EmitsAus s u := by
  obtain ⟨as, hlog, hcnt, hfill⟩ := h
  obtain ⟨bs, hlog', hcnt', hfill'⟩ := h'
  refine ⟨as ++ bs, by simp [hlog', hlog], by rw [hcnt', hcnt, List.length_append, BitVec.ofNat_add, BitVec.add_assoc], ?_⟩
  intro hnil
  obtain ⟨rfl, rfl⟩ := List.append_eq_nil_iff.1 hnil
  exact (hfill rfl).trans (hfill' rfl)

theorem emitsAus_lockDec (s : State) : EmitsAus s (lockDec s) :=
  .of_none (by simp) (by simp) (by simp)

theorem emitsAus_dropFragment (s : State) : EmitsAus s (dropFragment s) :=
  .of_none rfl rfl le_rfl

theorem emitsAus_noteMultiAu (n : Nat) (s : State) : EmitsAus s (noteMultiAu n s) := by
  unfold noteMultiAu
  split <;> exact .of_none rfl rfl le_rfl

theorem emitsAus_finalize (s : State) : EmitsAus s (finalize s) := by
  unfold finalize
  split
  · exact .of_none rfl rfl le_rfl
  · exact ⟨[finalAu s.dec], rfl, rfl, by simp⟩

theorem emitsAus_copyChunk (s : State) (bs : List Byte) (ts : Word) : EmitsAus s (copyChunk s bs ts) :=
  .of_none rfl rfl (Nat.le_add_right _ _)

theorem emitsAus_overflowFlush (s : State) : EmitsAus s (overflowFlush s) :=
  emitsAus_finalize { s with dec := { s.dec with ovfCnt := countUp s.dec.ovfCnt } }

theorem emitsAus_appendChunk (s : State) (bs : List Byte) (ts : Word) : EmitsAus s (appendChunk s bs ts) := by
  unfold appendChunk
  split
  · exact (emitsAus_overflowFlush s).trans (emitsAus_copyChunk ..)
  · exact emitsAus_copyChunk ..

/-- The accepted part of DEC_PKT emits access units only, and counts each (41_decoder R134, R137, R138). -/
theorem emitsAus_decodeAccepted (m : Bool) (base size offset : Nat) (ts : Word) (s : State) :
    EmitsAus s (decodeAccepted m base size offset ts s) :=
  decodeAccepted_induction (P := EmitsAus s) (emitsAus_lockDec s) (fun _ h => h.trans (emitsAus_dropFragment _))
    (fun _ _ h => h.trans (emitsAus_noteMultiAu ..)) (fun _ _ _ h => h.trans (emitsAus_appendChunk ..))
    (fun _ h => h.trans (emitsAus_finalize _))

theorem EmitsAus.advance (h : EmitsAus s t) (k : Nat) : EmitsAus s (advance t k) := h

end Sys2Proof.Machine
end

section
/-! The invariant: its parts (decoder, encoder, ERR, log), and that each command keeps each of them (10_state R46). -/

namespace Sys2Proof.Machine

open Sys2Proof.Claim

variable {s t : State}

/-! ### The parts of the invariant -/

/-- The decoder's part of the invariant. -/
structure Dec.Sound (d : Dec) : Prop where
  ok : d.Ok
  capMax : d.cap ≤ 8191
  warnExact : d.warnNoCfg = (d.locked && !d.cfg.valid)
  fresh : d.locked = false → d.fill = 7 ∧ d.ts = 0 ∧ d.acc.take 7 = List.replicate 7 0x00#8 ∧
    d.auCnt = 0 ∧ d.ovfCnt = 0 ∧ d.dropCnt = 0 ∧ d.multiCnt = 0

/-- The encoder's part of the invariant. -/
structure Enc.Sound (e : Enc) : Prop where
  fresh : e.locked = false → e.auCnt = 0 ∧ e.fragCnt = 0
  legal : e.locked = true → 21 ≤ e.mtu.toNat ∧ e.cycle ≠ 0

/-- ERR's part of the invariant. -/
def Err.Legal (e : Err) : Prop := e.code.toNat ≤ 9 ∧ (e.code = 0 → e.op = 0)

/-- The log's part of the invariant. -/
def State.LogWf (s : State) : Prop := ∀ e ∈ s.log, e.wf s.dec.cap

theorem State.Inv.decSound (h : s.Inv) : s.dec.Sound := ⟨h.decOk, h.capLegal.2, h.warnExact, h.decFresh⟩

theorem State.inv_iff : s.Inv ↔
    s.dec.Sound ∧ s.enc.Sound ∧ s.err.Legal ∧ s.LogWf ∧ s.imem.wf ∧ s.cp ≤ s.stream.length := by
  constructor
  · intro h
    exact ⟨h.decSound, ⟨h.encFresh, h.encLegal⟩, h.errLegal, h.logWf, h.imemWf,
      h.cpBound⟩
  · rintro ⟨hdec, henc, herr, hlog, himem, hcp⟩
    exact ⟨⟨hdec.ok.capMin, hdec.capMax⟩, ⟨hdec.ok.fillMin, hdec.ok.fillMax⟩, hdec.ok.accLen, hcp, himem, hdec.warnExact,
      hdec.ok.zero, hdec.fresh, henc.fresh, henc.legal, herr, hlog⟩

/-! ### The decoder -/

/-- Once locked, a decoder is sound when its accumulator is and the warning tells whether it was configured. -/
theorem Dec.Sound.of_locked {d : Dec} (ok : d.Ok) (capMax : d.cap ≤ 8191) (locked : d.locked = true)
    (warn : d.warnNoCfg = !d.cfg.valid) : d.Sound :=
  ⟨ok, capMax, by simp [locked, warn], by simp [locked]⟩

theorem lockedDec_ok {d : Dec} (h : d.Ok) : (lockedDec d).Ok :=
  ⟨by simpa using h.capMin, by simpa using h.fillMin, by simpa using h.fillMax, by simpa using h.accLen,
    by simpa using h.zero⟩

/-- After LOCK_DEC the warning tells whether the decoder was configured (41_decoder R131). -/
theorem lockedDec_warnNoCfg {d : Dec} (h : d.Sound) : (lockedDec d).warnNoCfg = !d.cfg.valid := by
  have hw := h.warnExact
  cases hl : d.locked with
  | true => simpa [lockedDec_of_locked hl, hl] using hw
  | false => simp [lockedDec_of_unlocked hl, hw, hl]

/-- A decoder with the setup LOCK_DEC leaves is sound when its accumulator is. -/
theorem Dec.Sound.of_setup {d e : Dec} (h : d.Sound) (ok : e.Ok) (hsetup : e.setup = (lockedDec d).setup) : e.Sound := by
  obtain ⟨hcfg, hlocked, hwarn, hcap⟩ := Dec.setup_eq_iff.1 hsetup
  refine .of_locked ok ?_ (by simpa using hlocked) ?_
  · simpa [hcap] using h.capMax
  · simp [hwarn, hcfg, lockedDec_warnNoCfg h]

theorem noteMultiAu_ok (h : s.dec.Ok) (n : Nat) : (noteMultiAu n s).dec.Ok := by
  unfold noteMultiAu
  split
  · exact ⟨h.capMin, h.fillMin, h.fillMax, h.accLen, h.zero⟩
  · exact h

theorem dropFragment_ok (h : s.dec.Ok) : (dropFragment s).dec.Ok := ⟨h.capMin, h.fillMin, h.fillMax, h.accLen, h.zero⟩

theorem decodeAccepted_ok (h : s.dec.Ok) (m : Bool) (base size offset : Nat) (ts : Word) :
    (decodeAccepted m base size offset ts s).dec.Ok :=
  decodeAccepted_induction (P := fun t => t.dec.Ok) (by simpa using lockedDec_ok h) (fun _ => dropFragment_ok)
    (fun _ _ h => noteMultiAu_ok h _) (fun _ _ hb h => appendChunk_ok h hb _) (fun _ => finalize_ok)

/-- DEC_RESET leaves a decoder in its construction window (70 R211). -/
theorem decReset_sound (h : s.dec.Ok) (hcap : s.dec.cap ≤ 8191) : (decReset s).dec.Sound := by
  have hacc : (decReset s).dec.acc = List.replicate 7 0x00#8 ++ s.dec.acc.drop 7 := by
    simp [decReset, obtainAcc_eq, headerBytes]
  have hzero : (decReset s).dec.acc.take 7 = List.replicate 7 0x00#8 := by simp [hacc]
  have hmin := h.capMin
  refine ⟨⟨hmin, le_rfl, ?_, ?_, fun _ => hzero⟩, hcap, rfl, fun _ => ⟨rfl, rfl, hzero, rfl, rfl, rfl, rfl⟩⟩
  · change 7 ≤ s.dec.cap
    omega
  · rw [hacc, List.length_append, List.length_replicate, List.length_drop, h.accLen]
    change 7 + (s.dec.cap - 7) = s.dec.cap
    omega

/-- DEC_CFG written in the construction window: the header region is still zero (10_state R33). -/
theorem Dec.Sound.configure {d : Dec} (h : d.Sound) (hl : d.locked = false) (c : DecCfg) :
    Dec.Sound { d with cfg := c } := by
  obtain ⟨-, -, hzero, -⟩ := h.fresh hl
  exact ⟨⟨h.ok.capMin, h.ok.fillMin, h.ok.fillMax, h.ok.accLen, fun _ => hzero⟩, h.capMax,
    by simpa [hl] using h.warnExact, h.fresh⟩

@[simp] theorem resetUnits_true_dec (enc : Bool) (s : State) : (resetUnits enc true s).dec = (decReset s).dec := by
  cases enc <;> rfl

@[simp] theorem resetUnits_true_enc (dec : Bool) (s : State) : (resetUnits true dec s).enc = Enc.reset := by
  cases dec <;> rfl

/-- A register write leaves the decoder, or stores DEC_CFG. -/
theorem regWrite_dec_eq (s : State) (r : Reg) (v : Word) :
    (regWrite s r v).dec = s.dec ∨ r = .decCfg ∧ (regWrite s r v).dec = { s.dec with cfg := DecCfg.ofWord v } := by
  cases r with
  | decCfg => exact .inr ⟨rfl, rfl⟩
  | _ => exact .inl rfl

theorem Effect.decSound {i : Instr} (h : Effect i s t) (hs : s.dec.Sound) : t.dec.Sound := by
  cases i with
  | reset rsv enc dec =>
    cases dec with
    | false => rwa [h.reset_dec]
    | true =>
      obtain ⟨-, rfl⟩ := h
      rw [advance_dec, resetUnits_true_dec]
      exact decReset_sound hs.ok hs.capMax
  | wrreg rsv addr data =>
    obtain ⟨-, ⟨-, rfl⟩ | ⟨r, u, -, hacc, hul, rfl⟩⟩ := h
    · exact hs
    · rw [advance_dec]
      obtain hdec | ⟨rfl, hdec⟩ := regWrite_dec_eq s r (data &&& r.wmask)
      · rwa [hdec]
      · cases hacc
        rw [hdec]
        exact hs.configure hul _
  | rdreg rsv addr => rwa [h.rdreg_units.2]
  | encAu rsv base size pfx dts => rwa [h.encAu_dec]
  | decPkt rsv m base size offset ts =>
    obtain ⟨-, -, rfl⟩ := h
    exact hs.of_setup (decodeAccepted_ok hs.ok ..) (by simpa using decodeAccepted_setup m _ _ _ ts s)
  | decFlush rsv =>
    obtain ⟨-, rfl⟩ := h
    exact hs.of_setup (finalize_ok (by simpa using lockedDec_ok hs.ok)) (by simpa using finalize_setup (lockDec s))

/-- Every command keeps the decoder's part of the invariant. -/
theorem exec_decSound {i : Instr} (h : exec i s = .next t) (hs : s.dec.Sound) : t.dec.Sound := by
  obtain hraise | heffect := exec_inv h
  · rwa [hraise.units.2]
  · exact heffect.decSound hs

/-! ### The encoder and ERR -/

theorem Enc.reset_sound : Enc.reset.Sound := ⟨fun _ => ⟨rfl, rfl⟩, by simp [Enc.reset]⟩

/-- DEC_CFG is the decoder's one configuration register (10_state R42). -/
theorem Reg.access_rwc_dec {r : Reg} (h : r.access = .rwc .dec) : r = .decCfg := by
  cases r <;> simp [Reg.access] at h ⊢

theorem regWrite_encSound (hs : s.enc.Sound) (hl : s.enc.locked = false) (r : Reg) (v : Word) :
    (regWrite s r v).enc.Sound := by
  have hfresh := hs.fresh hl
  have hlocked : (regWrite s r v).enc.locked = false := by cases r <;> exact hl
  refine ⟨fun _ => ?_, fun h => ?_⟩
  · cases r <;> exact hfresh
  · simp [hlocked] at h

theorem Effect.encSound {i : Instr} (h : Effect i s t) (hs : s.enc.Sound) : t.enc.Sound := by
  cases i with
  | reset rsv enc dec =>
    cases enc with
    | false => rwa [h.reset_enc]
    | true =>
      obtain ⟨-, rfl⟩ := h
      rw [advance_enc, resetUnits_true_enc]
      exact Enc.reset_sound
  | wrreg rsv addr data =>
    obtain ⟨-, ⟨-, rfl⟩ | ⟨r, u, -, hacc, hul, rfl⟩⟩ := h
    · exact hs
    · cases u with
      | enc => exact regWrite_encSound hs hul _ _
      | dec =>
        obtain rfl := Reg.access_rwc_dec hacc
        exact hs
  | rdreg rsv addr => rwa [h.rdreg_units.1]
  | encAu rsv base size pfx dts =>
    obtain ⟨-, hacc, rfl⟩ := h
    rw [advance_enc, encodeAccepted_eq hacc.mtu]
    exact ⟨by simp, fun _ => ⟨hacc.mtu, hacc.cycle⟩⟩
  | decPkt rsv m base size offset ts => rwa [h.decPkt_enc]
  | decFlush rsv => rwa [h.decFlush_enc]

theorem exec_encSound {i : Instr} (h : exec i s = .next t) (hs : s.enc.Sound) : t.enc.Sound := by
  obtain hraise | heffect := exec_inv h
  · rwa [hraise.units.1]
  · exact heffect.encSound hs

/-- The codes of 60_exceptions R180 are 1 to 9. -/
theorem ErrCode.legal (e : ErrCode) (op : BitVec 8) : Err.Legal { code := e.code, op := op } := by
  cases e <;> simp [Err.Legal, ErrCode.code]

@[simp] theorem regWrite_err (s : State) (r : Reg) (v : Word) : (regWrite s r v).err = s.err := by cases r <;> rfl

@[simp] theorem resetUnits_err (enc dec : Bool) (s : State) : (resetUnits enc dec s).err = s.err := by
  cases enc <;> cases dec <;> rfl

theorem decodeAccepted_err (m : Bool) (base size offset : Nat) (ts : Word) (s : State) :
    (decodeAccepted m base size offset ts s).err = s.err :=
  decodeAccepted_induction (P := fun t => t.err = s.err) (by simp) (by simp) (by simp) (by simp) (by simp)

/-- A command without an error leaves ERR or clears it (60_exceptions R184). -/
theorem Effect.err {i : Instr} (h : Effect i s t) : t.err = s.err ∨ t.err = Err.clear := by
  cases i with
  | reset rsv enc dec =>
    obtain ⟨-, rfl⟩ := h
    simp
  | wrreg rsv addr data =>
    obtain ⟨-, ⟨-, rfl⟩ | ⟨r, u, -, -, -, rfl⟩⟩ := h
    · exact .inr rfl
    · simp
  | rdreg rsv addr =>
    obtain ⟨-, r, -, rfl⟩ := h
    simp
  | encAu rsv base size pfx dts =>
    obtain ⟨-, hacc, rfl⟩ := h
    simp [encodeAccepted_eq hacc.mtu]
  | decPkt rsv m base size offset ts =>
    obtain ⟨-, -, rfl⟩ := h
    simp [decodeAccepted_err]
  | decFlush rsv =>
    obtain ⟨-, rfl⟩ := h
    simp

theorem Err.clear_legal : Err.clear.Legal := by simp [Err.Legal, Err.clear]

theorem exec_errLegal {i : Instr} (h : exec i s = .next t) (hs : s.err.Legal) : t.err.Legal := by
  obtain ⟨e, rfl⟩ | heffect := exec_inv h
  · exact ErrCode.legal e _
  · obtain herr | herr := heffect.err
    · rwa [herr]
    · rw [herr]
      exact Err.clear_legal

/-! ### The log -/

/-- The events of one splitter run are well formed (40_encoder R113, 20_memory R63). -/
theorem sliceFrag_wf {src l cap i c : Nat} {ts : Word} (hcap : 1 ≤ cap) (hl : l ≤ 8191) (hi : i < (l + cap - 1) / cap)
    (b : Beside) : (Event.frag (sliceFrag s (auHdr l) ts cap src l i) b).wf c := by
  have hlt : i * cap < l := by
    have := (Nat.le_div_iff_mul_le hcap).1 hi
    rw [Nat.succ_mul] at this
    omega
  have hnext : (i + 1) * cap = i * cap + cap := Nat.succ_mul i cap
  refine ⟨by simp [sliceFrag], ?_, ?_, by simp [sliceFrag, auHdr]⟩ <;> simp only [sliceFrag, auHdr_length] <;> omega

/-- The access unit a flush emits is well formed when something is held (20_memory R64). -/
theorem finalAu_wf {d : Dec} (h : d.Ok) (hf : d.fill ≠ 7) : (Event.au (finalAu d)).wf d.cap := by
  have := h.fillMin
  have := h.fillMax
  rw [finalAu_eq h]
  refine ⟨?_, ?_, h.fillMax⟩
  · simp [held_length h]
    omega
  · change 8 ≤ d.fill
    omega

/-- A state whose decoder may work on its accumulator, with a well-formed log. -/
structure State.Working (s : State) : Prop where
  ok : s.dec.Ok
  log : s.LogWf

theorem State.LogWf.congr (h : s.LogWf) (hlog : t.log = s.log) (hcap : t.dec.cap = s.dec.cap) : t.LogWf := by
  unfold State.LogWf at *
  rwa [hlog, hcap]

theorem State.Working.lockDec (h : s.Working) : (lockDec s).Working :=
  ⟨by simpa using lockedDec_ok h.ok, h.log.congr (by simp) (by simp)⟩

theorem State.Working.noteMultiAu (h : s.Working) (n : Nat) : (noteMultiAu n s).Working :=
  ⟨noteMultiAu_ok h.ok n, h.log.congr (by simp) (noteMultiAu_cap n s)⟩

theorem State.Working.dropFragment (h : s.Working) : (dropFragment s).Working :=
  ⟨dropFragment_ok h.ok, h.log⟩

theorem State.Working.finalize (h : s.Working) : (finalize s).Working := by
  refine ⟨finalize_ok h.ok, ?_⟩
  unfold State.LogWf
  rw [finalize_cap, finalize_log]
  split
  · simpa [State.LogWf] using h.log
  · rename_i hf
    intro e he
    obtain he | he := List.mem_append.1 he
    · exact h.log e he
    · rw [List.mem_singleton.1 he]
      exact finalAu_wf h.ok hf

theorem State.Working.overflowFlush (h : s.Working) : (overflowFlush s).Working :=
  State.Working.finalize (s := { s with dec := { s.dec with ovfCnt := countUp s.dec.ovfCnt } })
    ⟨⟨h.ok.1, h.ok.2, h.ok.3, h.ok.4, h.ok.5⟩, h.log⟩

theorem State.Working.appendChunk (h : s.Working) {bs : List Byte} (hb : bs.length ≤ s.dec.cap - 7) (ts : Word) :
    (appendChunk s bs ts).Working := by
  refine ⟨appendChunk_ok h.ok hb ts, ?_⟩
  unfold Machine.appendChunk
  split
  · exact h.overflowFlush.log
  · exact h.log

theorem State.Working.decodeAccepted (h : s.Working) (m : Bool) (base size offset : Nat) (ts : Word) :
    (decodeAccepted m base size offset ts s).Working :=
  decodeAccepted_induction h.lockDec (fun _ h => h.dropFragment) (fun _ _ h => h.noteMultiAu _)
    (fun _ _ hb h => h.appendChunk hb _) (fun _ h => h.finalize)

@[simp] theorem regWrite_log (s : State) (r : Reg) (v : Word) : (regWrite s r v).log = s.log := by cases r <;> rfl
@[simp] theorem regWrite_cap (s : State) (r : Reg) (v : Word) : (regWrite s r v).dec.cap = s.dec.cap := by
  cases r <;> rfl

@[simp] theorem resetUnits_log (enc dec : Bool) (s : State) : (resetUnits enc dec s).log = s.log := by
  cases enc <;> cases dec <;> rfl

@[simp] theorem resetUnits_cap (enc dec : Bool) (s : State) : (resetUnits enc dec s).dec.cap = s.dec.cap := by
  cases enc <;> cases dec <;> rfl

theorem State.LogWf.append_resp (h : s.LogWf) (w : Word) : (emitResp s w).LogWf := by
  intro e he
  obtain he | he := List.mem_append.1 he
  · exact h e he
  · rw [List.mem_singleton.1 he]
    trivial

theorem Effect.logWf {i : Instr} (h : Effect i s t) (hs : s.Working) : t.LogWf := by
  cases i with
  | reset rsv enc dec =>
    obtain ⟨-, rfl⟩ := h
    exact hs.log.congr (by simp) (by simp)
  | wrreg rsv addr data =>
    obtain ⟨-, ⟨-, rfl⟩ | ⟨r, u, -, -, -, rfl⟩⟩ := h
    · exact hs.log
    · exact hs.log.congr (by simp) (by simp)
  | rdreg rsv addr =>
    obtain ⟨-, r, -, rfl⟩ := h
    exact hs.log.append_resp _
  | encAu rsv base size pfx dts =>
    obtain ⟨-, hacc, rfl⟩ := h
    have hmtu := hacc.mtu
    unfold State.LogWf
    simp only [advance_log, advance_dec, encodeAccepted_eq hmtu]
    intro e he
    obtain he | he := List.mem_append.1 he
    · exact hs.log e he
    · obtain ⟨i, hi, rfl⟩ := List.mem_map.1 he
      exact sliceFrag_wf (by omega) hacc.short (List.mem_range.1 hi) _
  | decPkt rsv m base size offset ts =>
    obtain ⟨-, -, rfl⟩ := h
    exact (hs.decodeAccepted ..).log
  | decFlush rsv =>
    obtain ⟨-, rfl⟩ := h
    exact hs.lockDec.finalize.log

theorem Raises.logWf {i : Instr} (h : Raises i s t) (hs : s.LogWf) : t.LogWf := by
  obtain ⟨e, rfl⟩ := h
  split
  · exact hs.append_resp _
  · exact hs

theorem exec_logWf {i : Instr} (h : exec i s = .next t) (hs : s.Working) : t.LogWf := by
  obtain hraise | heffect := exec_inv h
  · exact hraise.logWf hs.log
  · exact heffect.logWf hs

/-! ### What surrounds the core -/

@[simp] theorem regWrite_cp (s : State) (r : Reg) (v : Word) : (regWrite s r v).cp = s.cp := by cases r <;> rfl
@[simp] theorem regWrite_stream (s : State) (r : Reg) (v : Word) : (regWrite s r v).stream = s.stream := by
  cases r <;> rfl

@[simp] theorem regWrite_imem (s : State) (r : Reg) (v : Word) : (regWrite s r v).imem = s.imem := by cases r <;> rfl

@[simp] theorem resetUnits_cp (enc dec : Bool) (s : State) : (resetUnits enc dec s).cp = s.cp := by
  cases enc <;> cases dec <;> rfl

@[simp] theorem resetUnits_stream (enc dec : Bool) (s : State) : (resetUnits enc dec s).stream = s.stream := by
  cases enc <;> cases dec <;> rfl

@[simp] theorem resetUnits_imem (enc dec : Bool) (s : State) : (resetUnits enc dec s).imem = s.imem := by
  cases enc <;> cases dec <;> rfl

theorem decodeAccepted_surroundings (m : Bool) (base size offset : Nat) (ts : Word) (s : State) :
    (decodeAccepted m base size offset ts s).cp = s.cp ∧
      (decodeAccepted m base size offset ts s).stream = s.stream ∧
      (decodeAccepted m base size offset ts s).imem = s.imem :=
  decodeAccepted_induction (P := fun t => t.cp = s.cp ∧ t.stream = s.stream ∧ t.imem = s.imem)
    (by simp) (by simp) (by simp) (by simp) (by simp)

theorem Effect.surroundings {i : Instr} (h : Effect i s t) :
    t.cp = s.cp + commandWords i.op.code ∧ t.stream = s.stream ∧ t.imem = s.imem := by
  rw [commandWords_code]
  cases i with
  | reset rsv enc dec =>
    obtain ⟨-, rfl⟩ := h
    simp [Instr.op]
  | wrreg rsv addr data =>
    obtain ⟨-, ⟨-, rfl⟩ | ⟨r, u, -, -, -, rfl⟩⟩ := h <;> simp [Instr.op]
  | rdreg rsv addr =>
    obtain ⟨-, r, -, rfl⟩ := h
    simp [Instr.op]
  | encAu rsv base size pfx dts =>
    obtain ⟨-, hacc, rfl⟩ := h
    simp [Instr.op, encodeAccepted_eq hacc.mtu]
  | decPkt rsv m base size offset ts =>
    obtain ⟨-, -, rfl⟩ := h
    simp [Instr.op, decodeAccepted_surroundings]
  | decFlush rsv =>
    obtain ⟨-, rfl⟩ := h
    simp [Instr.op]

/-- Every command consumes its words and leaves the stream and IMEM (10_state R21, 20_memory R60). -/
theorem exec_surroundings {i : Instr} (h : exec i s = .next t) :
    t.cp = s.cp + commandWords i.op.code ∧ t.stream = s.stream ∧ t.imem = s.imem := by
  obtain ⟨e, rfl⟩ | heffect := exec_inv h
  · split <;> simp
  · exact heffect.surroundings

/-! ### The step -/

theorem pendingWords_length (s : State) : (pendingWords s).length = s.stream.length - s.cp := by simp [pendingWords]

/-- A decoded command keeps the invariant. -/
theorem exec_inv_of_decode {i : Instr} (hdec : decode (pendingWords s) = .ok i) (h : exec i s = .next t) (hs : s.Inv) :
    t.Inv := by
  obtain ⟨hdecoder, henc, herr, hlog, himem, hcp⟩ := State.inv_iff.1 hs
  obtain ⟨hcp', hstream, himem'⟩ := exec_surroundings h
  obtain ⟨-, -, -, -, -, hwords⟩ := decode_ok hdec
  rw [pendingWords_length] at hwords
  refine State.inv_iff.2 ⟨exec_decSound h hdecoder, exec_encSound h henc, exec_errLegal h herr,
    exec_logWf h ⟨hdecoder.ok, hlog⟩, by rwa [himem'], ?_⟩
  rw [hcp', hstream]
  omega

/-- A command of a known opcode is rejected only for a missing operand word (30_encoding R100). -/
theorem decodeOp_error {o : Op} {cw : Word} {rest : List Word} {r : DecodeReject} (h : decodeOp o cw rest = .error r) :
    r = .incomplete o := by
  cases o with
  | reset | rdreg | decFlush => cases h
  | wrreg | encAu | decPkt =>
    simp only [decodeOp] at h
    split at h <;> cases h
    rfl

/-- An opcode outside the map is the front word's, and occupies it alone (30_encoding R88, R97). -/
theorem decode_illegal {ws : List Word} {op : BitVec 8} (h : decode ws = .error (.illegalOpcode op)) :
    commandWords op = 1 ∧ 1 ≤ ws.length := by
  match ws, h with
  | cw :: rest, h =>
    simp only [decode] at h
    split at h
    · rename_i hnone
      cases h
      exact ⟨by simp [commandWords, hnone], by simp⟩
    · cases decodeOp_error h

theorem step_keeps_inv (h : step s = .next t) (hs : s.Inv) : t.Inv := by
  obtain ⟨i, hdec, hexec⟩ | ⟨op, hdec, rfl⟩ := step_inv h
  · exact exec_inv_of_decode hdec hexec hs
  · obtain ⟨hdecoder, henc, -, hlog, himem, -⟩ := State.inv_iff.1 hs
    obtain ⟨hone, hlen⟩ := decode_illegal hdec
    rw [pendingWords_length] at hlen
    refine State.inv_iff.2 ⟨hdecoder, henc, ErrCode.legal _ _, hlog, himem, ?_⟩
    rw [takeError_cp, takeError_stream, hone]
    omega

end Sys2Proof.Machine

namespace Sys2Proof.Proofs

open Sys2Proof.Machine

/-- Settles O27: every part of the invariant is kept by every command, and `cp` by the decoder's count of the words. -/
theorem stepKeepsInvariant : Obligations.StepKeepsInvariant :=
  fun _ _ hs h => step_keeps_inv h hs

end Sys2Proof.Proofs
end

section
/-! The accumulator bytes from FILL on reach no output (10_state R35): the relation "differ at most there" is kept by every
part of the meanings, hence by every command and every step. -/

namespace Sys2Proof.Machine

/-- `s` with other bytes in ACC. -/
def State.withAcc (s : State) (acc : List Byte) : State := { s with dec := { s.dec with acc := acc } }

theorem take_of_take_eq {α : Type} {xs ys : List α} {m n : Nat} (h : xs.take n = ys.take n) (hmn : m ≤ n) :
    xs.take m = ys.take m := by
  rw [← Nat.min_eq_left hmn, ← List.take_take, h, List.take_take]

/-- Fresh header bytes before the old payload: FILL is then 7, and the old payload stale. -/
theorem take_seven_fresh {hdr xs ys : List Byte} (hh : hdr.length = 7) :
    (hdr ++ xs).take 7 = (hdr ++ ys).take 7 := by
  rw [List.take_left' hh, List.take_left' hh]

/-- A fragment in range is well formed or malformed (41_decoder R135). -/
theorem fragment_cases {base size : Word} (s : State) (hr : base.toNat + size.toNat ≤ 2 ^ 32) (offset : Word) :
    FragmentWellFormed s base size offset ∨
      (offset.toNat > size.toNat ∨ size.toNat - offset.toNat < 2 ∨
        2 + 2 * countAt s (base.toNat + offset.toNat) > size.toNat - offset.toNat) := by
  by_cases hbad : offset.toNat > size.toNat ∨ size.toNat - offset.toNat < 2 ∨
      2 + 2 * countAt s (base.toNat + offset.toNat) > size.toNat - offset.toNat
  · exact .inr hbad
  · simp only [not_or, not_lt] at hbad
    exact .inl ⟨hr, hbad.1, hbad.2.1, hbad.2.2⟩

/-- Two answers alike: next states that differ at most in stale bytes, or the same stop. -/
inductive AlikeResults : Result → Result → Prop
  | next {s t : State} : Claim.SameButStale s t → AlikeResults (.next s) (.next t)
  | fault (f : Fault) : AlikeResults (.fault f) (.fault f)
  | refused (r : Refusal) : AlikeResults (.refused r) (.refused r)

end Sys2Proof.Machine

namespace Sys2Proof.Claim

open Sys2Proof.Machine

variable {s t : State}

/-! ### The relation -/

/-- Two states differ at most from FILL on when one is the other with an accumulator that agrees below FILL. -/
theorem sameButStale_iff : SameButStale s t ↔
    ∃ acc, t = s.withAcc acc ∧ s.dec.acc.take s.dec.fill = acc.take s.dec.fill ∧ s.dec.acc.length = acc.length := by
  constructor
  · rintro ⟨htake, hlen, ht⟩
    exact ⟨t.dec.acc, ht, htake, hlen⟩
  · rintro ⟨acc, rfl, htake, hlen⟩
    exact ⟨htake, hlen, rfl⟩

theorem SameButStale.ok (h : SameButStale s t) (hs : s.dec.Ok) : t.dec.Ok := by
  obtain ⟨acc, rfl, htake, hlen⟩ := sameButStale_iff.1 h
  refine ⟨hs.capMin, hs.fillMin, hs.fillMax, hlen.symm.trans hs.accLen, fun hv => ?_⟩
  exact (take_of_take_eq htake hs.fillMin).symm.trans (hs.zero hv)

/-- The payload held stands below FILL. -/
theorem SameButStale.held (h : SameButStale s t) : t.dec.held = s.dec.held := by
  obtain ⟨acc, rfl, htake, -⟩ := sameButStale_iff.1 h
  exact congrArg (List.drop 7) htake.symm

/-- What does not read ACC is the same in both. -/
theorem SameButStale.congr {α : Type} {g : State → α} (h : SameButStale s t) (hg : ∀ acc, g (s.withAcc acc) = g s) :
    g t = g s := by
  obtain ⟨acc, rfl, -, -⟩ := sameButStale_iff.1 h
  exact hg acc

theorem SameButStale.regRead (h : SameButStale s t) (r : Reg) : regRead t r = regRead s r :=
  h.congr (g := fun s => Machine.regRead s r) fun _ => by cases r <;> rfl

theorem SameButStale.unitLocked (h : SameButStale s t) (u : CoreUnit) : t.unitLocked u = s.unitLocked u :=
  h.congr (g := fun s => s.unitLocked u) fun _ => by cases u <;> rfl

theorem SameButStale.log (h : SameButStale s t) : t.log = s.log := h.congr fun _ => rfl
theorem SameButStale.imem (h : SameButStale s t) : t.imem = s.imem := h.congr fun _ => rfl
theorem SameButStale.enc (h : SameButStale s t) : t.enc = s.enc := h.congr fun _ => rfl
theorem SameButStale.cap (h : SameButStale s t) : t.dec.cap = s.dec.cap := h.congr (g := fun s => s.dec.cap) fun _ => rfl
theorem SameButStale.fill (h : SameButStale s t) : t.dec.fill = s.dec.fill :=
  h.congr (g := fun s => s.dec.fill) fun _ => rfl

theorem SameButStale.pendingWords (h : SameButStale s t) : pendingWords t = pendingWords s := h.congr fun _ => rfl

/-! ### Updates that do not touch the accumulator -/

/-- An update that leaves ACC and FILL, and does the same whatever ACC holds, keeps the relation. -/
theorem SameButStale.map {f : State → State} (h : SameButStale s t)
    (hf : ∀ acc, f (s.withAcc acc) = (f s).withAcc acc) (hacc : (f s).dec.acc = s.dec.acc)
    (hfill : (f s).dec.fill = s.dec.fill) : SameButStale (f s) (f t) := by
  obtain ⟨acc, rfl, htake, hlen⟩ := sameButStale_iff.1 h
  refine sameButStale_iff.2 ⟨acc, hf acc, ?_, ?_⟩
  · rwa [hacc, hfill]
  · rwa [hacc]

theorem SameButStale.advance (h : SameButStale s t) (k : Nat) : SameButStale (advance s k) (advance t k) :=
  h.map (f := fun s => Machine.advance s k) (fun _ => rfl) rfl rfl

theorem SameButStale.takeError (h : SameButStale s t) (e : ErrCode) (op : BitVec 8) :
    SameButStale (takeError s e op) (takeError t e op) :=
  h.map (f := fun s => Machine.takeError s e op) (fun _ => rfl) rfl rfl

theorem SameButStale.emitResp (h : SameButStale s t) (w : Word) : SameButStale (emitResp s w) (emitResp t w) :=
  h.map (f := fun s => Machine.emitResp s w) (fun _ => rfl) rfl rfl

theorem SameButStale.withErr (h : SameButStale s t) (e : Err) :
    SameButStale { s with err := e } { t with err := e } :=
  h.map (f := fun s => { s with err := e }) (fun _ => rfl) rfl rfl

theorem SameButStale.regWrite (h : SameButStale s t) (r : Reg) (v : Word) :
    SameButStale (regWrite s r v) (regWrite t r v) := by
  obtain ⟨acc, rfl, htake, hlen⟩ := sameButStale_iff.1 h
  cases r <;> exact ⟨htake, hlen, rfl⟩

theorem SameButStale.encReset (h : SameButStale s t) : SameButStale (encReset s) (encReset t) :=
  h.map (fun _ => rfl) rfl rfl

theorem SameButStale.encodeAccepted (h : SameButStale s t) (hm : 21 ≤ s.enc.mtu.toNat) (src l : Nat) (dts : Word) :
    SameButStale (encodeAccepted src l dts s) (encodeAccepted src l dts t) := by
  refine h.map (f := Machine.encodeAccepted src l dts) (fun acc => ?_) ?_ ?_
  · rw [encodeAccepted_eq hm, encodeAccepted_eq (s := s.withAcc acc) hm]
    rfl
  · rw [encodeAccepted_dec hm]
  · rw [encodeAccepted_dec hm]

theorem SameButStale.lockDec (h : SameButStale s t) : SameButStale (lockDec s) (lockDec t) := by
  refine h.map (fun acc => ?_) (by simp) (by simp)
  have hlocked : (s.withAcc acc).dec.locked = s.dec.locked := rfl
  unfold Machine.lockDec
  rw [hlocked]
  split <;> rfl

theorem SameButStale.dropFragment (h : SameButStale s t) : SameButStale (dropFragment s) (dropFragment t) :=
  h.map (fun _ => rfl) rfl rfl

theorem SameButStale.noteMultiAu (h : SameButStale s t) (n : Nat) :
    SameButStale (noteMultiAu n s) (noteMultiAu n t) := by
  unfold Machine.noteMultiAu
  split
  · exact h.map (f := fun s => { s with dec := { s.dec with multiCnt := countUp s.dec.multiCnt } }) (fun _ => rfl) rfl rfl
  · exact h

theorem SameButStale.countOverflow (h : SameButStale s t) :
    SameButStale { s with dec := { s.dec with ovfCnt := countUp s.dec.ovfCnt } }
      { t with dec := { t.dec with ovfCnt := countUp t.dec.ovfCnt } } :=
  h.map (f := fun s => { s with dec := { s.dec with ovfCnt := countUp s.dec.ovfCnt } }) (fun _ => rfl) rfl rfl

/-! ### The operations on the accumulator -/

theorem SameButStale.decReset (h : SameButStale s t) : SameButStale (decReset s) (decReset t) := by
  obtain ⟨acc, rfl, -, hlen⟩ := sameButStale_iff.1 h
  simp only [Machine.decReset, obtainAcc_eq]
  exact ⟨take_seven_fresh (headerBytes_length ..), by simp [State.withAcc, hlen], rfl⟩

theorem SameButStale.finalize (h : SameButStale s t) (hs : s.dec.Ok) : SameButStale (finalize s) (finalize t) := by
  have ht := h.ok hs
  have hheld := h.held
  obtain ⟨acc, rfl, htake, hlen⟩ := sameButStale_iff.1 h
  by_cases hf : s.dec.fill = 7
  · rwa [finalize_of_empty hf, finalize_of_empty (s := s.withAcc acc) hf]
  · rw [finalize_of_held hs hf, finalize_of_held ht hf, hheld]
    exact ⟨take_seven_fresh (headerBytes_length ..), by simp [State.withAcc, hlen], rfl⟩

theorem SameButStale.overflowFlush (h : SameButStale s t) (hs : s.dec.Ok) :
    SameButStale (overflowFlush s) (overflowFlush t) :=
  h.countOverflow.finalize ⟨hs.capMin, hs.fillMin, hs.fillMax, hs.accLen, hs.zero⟩

/-- The copy writes at FILL, so what it puts below the new FILL does not depend on the stale bytes. -/
theorem SameButStale.copyChunk (h : SameButStale s t) {bs : List Byte}
    (hb : s.dec.fill + bs.length ≤ s.dec.acc.length) (ts : Word) :
    SameButStale (copyChunk s bs ts) (copyChunk t bs ts) := by
  obtain ⟨acc, rfl, htake, hlen⟩ := sameButStale_iff.1 h
  have hfront : (s.dec.acc.take s.dec.fill ++ bs).length = s.dec.fill + bs.length := by simp; omega
  refine ⟨?_, ?_, rfl⟩
  · simp only [copyChunk_dec, State.withAcc, accWrite, ← htake]
    rw [List.take_left' hfront, List.take_left' hfront]
  · simp only [copyChunk_dec, State.withAcc]
    rw [accWrite_length hb, accWrite_length (hlen ▸ hb), hlen]

theorem SameButStale.appendChunk (h : SameButStale s t) (hs : s.dec.Ok) {bs : List Byte}
    (hb : bs.length ≤ s.dec.cap - 7) (ts : Word) : SameButStale (appendChunk s bs ts) (appendChunk t bs ts) := by
  by_cases hover : s.dec.cap < s.dec.fill + bs.length
  · rw [appendChunk_of_overflow hover, appendChunk_of_overflow (by rwa [h.cap, h.fill])]
    refine (h.overflowFlush hs).copyChunk ?_ ts
    have hempty : (Machine.overflowFlush s).dec.fill = 7 := finalize_fill
    have hcap : (Machine.overflowFlush s).dec.cap = s.dec.cap := finalize_cap _
    have hmin := hs.capMin
    rw [(overflowFlush_ok hs).accLen, hempty, hcap]
    omega
  · rw [appendChunk_of_fits (by omega), appendChunk_of_fits (by rw [h.cap, h.fill]; omega)]
    exact h.copyChunk (by rw [hs.accLen]; omega) ts

/-- The chunks of a packet, appended to both (41_decoder R140). -/
theorem SameButStale.appendChunks (h : SameButStale s t) (hs : s.dec.Ok) {cs : List (List Byte)}
    (hcs : ∀ c ∈ cs, c.length ≤ s.dec.cap - 7) (ts : Word) :
    (cs.foldl (fun s c => Machine.appendChunk s c ts) s).dec.Ok ∧
      SameButStale (cs.foldl (fun s c => Machine.appendChunk s c ts) s)
        (cs.foldl (fun s c => Machine.appendChunk s c ts) t) := by
  induction cs generalizing s t with
  | nil => exact ⟨hs, h⟩
  | cons c cs ih =>
    have hc := hcs c List.mem_cons_self
    refine ih (h.appendChunk hs hc ts) (appendChunk_ok hs hc ts) fun d hd => ?_
    rw [appendChunk_cap]
    exact hcs d (List.mem_cons_of_mem _ hd)

/-! ### The commands -/

theorem SameButStale.countAt (h : SameButStale s t) (p : Nat) : countAt t p = countAt s p := by
  simp only [Machine.countAt, h.imem]

theorem SameButStale.fragmentWellFormed (h : SameButStale s t) {base size offset : Word}
    (hw : FragmentWellFormed s base size offset) : FragmentWellFormed t base size offset :=
  ⟨hw.range, hw.offsetLe, hw.twoBytes, by simpa only [h.countAt] using hw.region⟩

theorem SameButStale.fragmentData (h : SameButStale s t) (base size offset : Word) :
    fragmentData t base size offset = fragmentData s base size offset := by
  simp only [Machine.fragmentData, h.countAt, memRead_imem h.imem]

theorem SameButStale.decodeAccepted (h : SameButStale s t) (hs : s.dec.Ok) {base size : Word}
    (hr : base.toNat + size.toNat ≤ 2 ^ 32) (m : Bool) (offset ts : Word) :
    SameButStale (decodeAccepted m base.toNat size.toNat offset.toNat ts s)
      (decodeAccepted m base.toNat size.toNat offset.toNat ts t) := by
  obtain hw | hbad := fragment_cases s hr offset
  · have hmin := hs.capMin
    have hstart : (Machine.noteMultiAu (Machine.countAt s (base.toNat + offset.toNat)) (Machine.lockDec s)).dec.Ok :=
      noteMultiAu_ok (by simpa using lockedDec_ok hs) _
    have hchunks : ∀ c ∈ chunksOf (s.dec.cap - 7) (Machine.fragmentData s base size offset), c.length ≤
        (Machine.noteMultiAu (Machine.countAt s (base.toNat + offset.toNat)) (Machine.lockDec s)).dec.cap - 7 := by
      rw [noteMultiAu_cap, lockDec_dec, lockedDec_cap]
      exact (chunksOf_spec (by omega) _).1
    obtain ⟨hok, hsame⟩ := (h.lockDec.noteMultiAu _).appendChunks hstart hchunks ts
    rw [decodeAccepted_wellFormed hmin hw, decodeAccepted_wellFormed (h.cap ▸ hmin) (h.fragmentWellFormed hw), h.cap,
      h.countAt, h.fragmentData]
    cases m with
    | false => exact hsame
    | true => exact hsame.finalize hok
  · rw [decodeAccepted_malformed hbad, decodeAccepted_malformed (by simpa only [h.countAt] using hbad)]
    exact h.lockDec.dropFragment

theorem SameButStale.raiseErr (h : SameButStale s t) (e : ErrCode) (o : Op) :
    AlikeResults (raiseErr s e o) (raiseErr t e o) := .next (h.takeError e _)

theorem SameButStale.execReset (h : SameButStale s t) (rsv : BitVec 22) (enc dec : Bool) :
    AlikeResults (execReset rsv enc dec s) (execReset rsv enc dec t) := by
  unfold Machine.execReset
  split
  · exact h.raiseErr _ _
  · refine .next (SameButStale.advance ?_ 1)
    cases enc <;> cases dec
    · exact h
    · exact h.decReset
    · exact h.encReset
    · exact h.encReset.decReset

theorem SameButStale.execWrreg (h : SameButStale s t) (rsv addr : BitVec 12) (data : Word) :
    AlikeResults (execWrreg rsv addr data s) (execWrreg rsv addr data t) := by
  unfold Machine.execWrreg
  simp only [h.unitLocked]
  split
  · exact h.raiseErr _ _
  split
  · exact h.raiseErr _ _
  split
  · exact .next ((h.withErr _).advance 2)
  · exact h.raiseErr _ _
  split
  · exact h.raiseErr _ _
  · exact .next ((h.regWrite _ _).advance 2)

theorem SameButStale.execRdreg (h : SameButStale s t) (rsv addr : BitVec 12) :
    AlikeResults (execRdreg rsv addr s) (execRdreg rsv addr t) := by
  unfold Machine.execRdreg
  simp only [h.regRead]
  split
  · exact (h.emitResp _).raiseErr _ _
  split
  · exact (h.emitResp _).raiseErr _ _
  · exact .next ((h.emitResp _).advance 1)

theorem SameButStale.execEncAu (h : SameButStale s t) (rsv : BitVec 24) (base size pfx dts : Word) :
    AlikeResults (execEncAu rsv base size pfx dts s) (execEncAu rsv base size pfx dts t) := by
  unfold Machine.execEncAu
  simp only [h.enc]
  split
  · exact h.raiseErr _ _
  split
  · exact h.raiseErr _ _
  split
  · exact h.raiseErr _ _
  split
  · exact h.raiseErr _ _
  split
  · exact h.raiseErr _ _
  · rename_i hcfg _
    simp only [config_mtuMin, not_or, not_lt] at hcfg
    exact .next ((h.encodeAccepted hcfg.1 _ _ _).advance 5)

theorem SameButStale.execDecPkt (h : SameButStale s t) (hs : s.dec.Ok) (rsv : BitVec 23) (m : Bool)
    (base size offset ts : Word) :
    AlikeResults (execDecPkt rsv m base size offset ts s) (execDecPkt rsv m base size offset ts t) := by
  unfold Machine.execDecPkt
  split
  · exact h.raiseErr _ _
  split
  · exact h.raiseErr _ _
  · rename_i hr
    rw [Bool.not_eq_false, rangeFits_iff] at hr
    exact .next ((h.decodeAccepted hs hr m offset ts).advance 5)

theorem SameButStale.execDecFlush (h : SameButStale s t) (hs : s.dec.Ok) (rsv : BitVec 24) :
    AlikeResults (execDecFlush rsv s) (execDecFlush rsv t) := by
  unfold Machine.execDecFlush
  split
  · exact h.raiseErr _ _
  · exact .next ((h.lockDec.finalize (by simpa using lockedDec_ok hs)).advance 1)

theorem SameButStale.exec (h : SameButStale s t) (hs : s.dec.Ok) (i : Instr) :
    AlikeResults (exec i s) (exec i t) := by
  cases i with
  | reset rsv enc dec => exact h.execReset rsv enc dec
  | wrreg rsv addr data => exact h.execWrreg rsv addr data
  | rdreg rsv addr => exact h.execRdreg rsv addr
  | encAu rsv base size pfx dts => exact h.execEncAu rsv base size pfx dts
  | decPkt rsv m base size offset ts => exact h.execDecPkt hs rsv m base size offset ts
  | decFlush rsv => exact h.execDecFlush hs rsv

/-! ### The step -/

theorem SameButStale.step (h : SameButStale s t) (hs : s.dec.Ok) : AlikeResults (step s) (step t) := by
  unfold Machine.step
  rw [h.pendingWords]
  split
  · exact h.exec hs _
  · rename_i r _
    cases r with
    | noCommand => exact .fault _
    | incomplete o => exact .fault _
    | illegalOpcode op => exact .next (h.takeError _ _)

end Sys2Proof.Claim

namespace Sys2Proof.Proofs

open Sys2Proof.Machine

/-- Settles O34: every part of every meaning keeps the relation, so the two steps' answers are alike. -/
theorem staleAccumulatorIsUnobservable : Obligations.StaleAccumulatorIsUnobservable := by
  intro s1 s2 hs1 _ hsame
  have halike := hsame.step hs1.decOk
  refine ⟨fun t1 hstep => ?_, fun f hstep => ?_⟩
  · rw [hstep] at halike
    generalize step s2 = answer at halike ⊢
    cases halike with
    | next h => exact ⟨_, rfl, h, h.log, h.regRead⟩
  · rw [hstep] at halike
    generalize step s2 = answer at halike ⊢
    cases halike
    rfl

end Sys2Proof.Proofs
end

section
/-! What a command does to each unit's lock, configuration, counters and events, said once: it leaves them, resets the
unit, or is an accepted data command of the unit (10_state R31, R33, R37, R45). -/

namespace Sys2Proof.Machine

open Sys2Proof.Claim

variable {s t : State} {i : Instr}

/-! ### Events -/

theorem newEvents_of_log {evs : List Event} (h : t.log = s.log ++ evs) : newEvents s t = evs := by
  simp [newEvents, h]

@[simp] theorem newEvents_advance (s t : State) (k : Nat) : newEvents s (advance t k) = newEvents s t := rfl

/-- From `s` to `t` nothing but answers of RDREG is emitted. -/
def EmitsResponses (s t : State) : Prop := ∃ ws : List Word, t.log = s.log ++ ws.map Event.resp

theorem EmitsResponses.of_log (h : t.log = s.log) : EmitsResponses s t := ⟨[], by simpa using h⟩

theorem EmitsResponses.frags (h : EmitsResponses s t) : (newEvents s t).filterMap Event.frag? = [] := by
  obtain ⟨ws, hlog⟩ := h
  simp [newEvents_of_log hlog, Event.frag?]

theorem EmitsResponses.aus (h : EmitsResponses s t) : (newEvents s t).filterMap Event.au? = [] := by
  obtain ⟨ws, hlog⟩ := h
  simp [newEvents_of_log hlog, Event.au?]

theorem EmitsAus.frags (h : EmitsAus s t) : (newEvents s t).filterMap Event.frag? = [] := by
  obtain ⟨aus, hlog, -, -⟩ := h
  simp [newEvents_of_log hlog, Event.frag?]

/-- The access units among the new events are those emitted. -/
theorem EmitsAus.aus (h : EmitsAus s t) :
    t.dec.auCnt = s.dec.auCnt + BitVec.ofNat 32 ((newEvents s t).filterMap Event.au?).length ∧
      ((newEvents s t).filterMap Event.au? = [] → s.dec.fill ≤ t.dec.fill) := by
  obtain ⟨aus, hlog, hcnt, hfill⟩ := h
  have haus : (newEvents s t).filterMap Event.au? = aus := by
    simp [newEvents_of_log hlog, List.filterMap_map, Function.comp_def, Event.au?]
  rw [haus]
  exact ⟨hcnt, hfill⟩

theorem Raises.responses (h : Raises i s t) : EmitsResponses s t := by
  obtain ⟨e, rfl⟩ := h
  split
  · exact ⟨[0#32], rfl⟩
  · exact .of_log rfl

theorem Effect.reset_responses {rsv : BitVec 22} {enc dec : Bool} (h : Effect (.reset rsv enc dec) s t) :
    EmitsResponses s t := by
  obtain ⟨-, rfl⟩ := h
  exact .of_log (by simp)

theorem Effect.wrreg_responses {rsv addr : BitVec 12} {data : Word} (h : Effect (.wrreg rsv addr data) s t) :
    EmitsResponses s t := by
  obtain ⟨-, ⟨-, rfl⟩ | ⟨r, u, -, -, -, rfl⟩⟩ := h
  · exact .of_log rfl
  · exact .of_log (by simp)

theorem Effect.rdreg_responses {rsv addr : BitVec 12} (h : Effect (.rdreg rsv addr) s t) : EmitsResponses s t := by
  obtain ⟨-, r, -, rfl⟩ := h
  exact ⟨[regRead s r], rfl⟩

theorem Effect.decPkt_aus {rsv : BitVec 23} {m : Bool} {base size offset ts : Word}
    (h : Effect (.decPkt rsv m base size offset ts) s t) : EmitsAus s t := by
  obtain ⟨-, -, rfl⟩ := h
  exact (emitsAus_decodeAccepted ..).advance 5

theorem Effect.decFlush_aus {rsv : BitVec 24} (h : Effect (.decFlush rsv) s t) : EmitsAus s t := by
  obtain ⟨-, rfl⟩ := h
  exact ((emitsAus_lockDec s).trans (emitsAus_finalize _)).advance 1

theorem Effect.encAu_no_aus {rsv : BitVec 24} {base size pfx dts : Word} (h : Effect (.encAu rsv base size pfx dts) s t) :
    (newEvents s t).filterMap Event.au? = [] := by
  obtain ⟨-, hacc, rfl⟩ := h
  rw [newEvents_advance, newEvents_of_log (congrArg State.log (encodeAccepted_eq hacc.mtu))]
  simp [Event.au?]

/-! ### The encoder -/

/-- An ENC_AU that is accepted (40_encoder R110). -/
def EncodesAu (i : Instr) (s : State) : Prop :=
  ∃ base size pfx dts, i = .encAu 0 base size pfx dts ∧ EncAccepts s base size pfx

theorem expectedError_encAu_eq_none_iff {rsv : BitVec 24} {base size pfx dts : Word} :
    expectedError (.encAu rsv base size pfx dts) s = none ↔ rsv = 0 ∧ EncAccepts s base size pfx := by
  have hcycle : s.enc.cycle.toNat = 0 ↔ s.enc.cycle = 0 := BitVec.toNat_inj (y := 0)
  constructor
  · intro h
    simp only [expectedError] at h
    split_ifs at h with hwf hrange hpfx hcfg hlong
    simp only [hcycle, not_or] at hcfg
    exact ⟨by simpa [Instr.wellFormed] using hwf, by omega, by omega, by omega, hcfg.2, by omega⟩
  · rintro ⟨rfl, hacc⟩
    have := hacc.range
    have := hacc.pfxLe
    have := hacc.mtu
    have := hacc.short
    unfold expectedError
    rw [if_neg (by simp [Instr.wellFormed])]
    simp only
    rw [if_neg (by omega), if_neg (by omega), if_neg (not_or.2 ⟨by omega, mt hcycle.1 hacc.cycle⟩), if_neg (by omega)]

theorem encodesAu_iff : EncodesAu i s ↔ opByte i = 0x10#8 ∧ expectedError i s = none := by
  constructor
  · rintro ⟨base, size, pfx, dts, rfl, hacc⟩
    exact ⟨rfl, expectedError_encAu_eq_none_iff.2 ⟨rfl, hacc⟩⟩
  · rintro ⟨hop, hnone⟩
    cases i with
    | encAu rsv base size pfx dts =>
      obtain ⟨rfl, hacc⟩ := expectedError_encAu_eq_none_iff.1 hnone
      exact ⟨base, size, pfx, dts, rfl, hacc⟩
    | _ => simp [opByte] at hop

/-- A command that neither resets the encoder nor is accepted by it: only the configuration of an unlocked encoder can
change. -/
structure Enc.Kept (e e' : Enc) : Prop where
  locked : e'.locked = e.locked
  auCnt : e'.auCnt = e.auCnt
  fragCnt : e'.fragCnt = e.fragCnt
  frozen : e.locked = true → e' = e

theorem Enc.Kept.of_eq {e e' : Enc} (h : e' = e) : Enc.Kept e e' := by
  subst h
  exact ⟨rfl, rfl, rfl, fun _ => rfl⟩

theorem Effect.wrreg_encKept {rsv addr : BitVec 12} {data : Word} (h : Effect (.wrreg rsv addr data) s t) :
    Enc.Kept s.enc t.enc := by
  obtain ⟨-, ⟨-, rfl⟩ | ⟨r, u, -, hacc, hul, rfl⟩⟩ := h
  · exact .of_eq rfl
  · cases u with
    | enc =>
      have hopen : s.enc.locked = false := hul
      cases r <;> exact ⟨rfl, rfl, rfl, by simp [hopen]⟩
    | dec =>
      obtain rfl := Reg.access_rwc_dec hacc
      exact .of_eq rfl

/-- What an accepted ENC_AU does to the encoder and emits (40_encoder R110). -/
theorem exec_encodesAu (hacc : EncodesAu i s) (h : exec i s = .next t) :
    t.enc.locked = true ∧ encConfig t = encConfig s ∧ t.enc.auCnt = s.enc.auCnt + 1 ∧
      t.enc.fragCnt = s.enc.fragCnt + BitVec.ofNat 32 ((newEvents s t).filterMap Event.frag?).length := by
  obtain ⟨base, size, pfx, dts, rfl, haccepts⟩ := hacc
  rw [exec_encAu haccepts] at h
  cases h
  rw [newEvents_advance, newEvents_of_log (congrArg State.log (encodeAccepted_eq haccepts.mtu))]
  simp [encodeAccepted_eq haccepts.mtu, encConfig, regRead, List.filterMap_map, Function.comp_def, Event.frag?]

/-- What any other command does to the encoder: it resets it, or keeps its lock and counters and emits no fragment. -/
theorem exec_not_encodesAu (hacc : ¬ EncodesAu i s) (h : exec i s = .next t) :
    (∃ dec, i = .reset 0 true dec ∧ t.enc = Enc.reset) ∨
      Enc.Kept s.enc t.enc ∧ (newEvents s t).filterMap Event.frag? = [] := by
  obtain hraise | heffect := exec_inv h
  · exact .inr ⟨.of_eq hraise.units.1, hraise.responses.frags⟩
  cases i with
  | reset rsv enc dec =>
    cases enc with
    | false => exact .inr ⟨.of_eq heffect.reset_enc, heffect.reset_responses.frags⟩
    | true =>
      obtain ⟨rfl, rfl⟩ := heffect
      exact .inl ⟨dec, rfl, resetUnits_true_enc dec s⟩
  | wrreg rsv addr data => exact .inr ⟨heffect.wrreg_encKept, heffect.wrreg_responses.frags⟩
  | rdreg rsv addr => exact .inr ⟨.of_eq heffect.rdreg_units.1, heffect.rdreg_responses.frags⟩
  | encAu rsv base size pfx dts =>
    obtain ⟨rfl, haccepts, -⟩ := heffect
    exact absurd ⟨base, size, pfx, dts, rfl, haccepts⟩ hacc
  | decPkt rsv m base size offset ts => exact .inr ⟨.of_eq heffect.decPkt_enc, heffect.decPkt_aus.frags⟩
  | decFlush rsv => exact .inr ⟨.of_eq heffect.decFlush_enc, heffect.decFlush_aus.frags⟩

/-! ### The decoder -/

/-- A DEC_PKT or DEC_FLUSH that is accepted (41_decoder R134, R143). -/
def DecodesData (i : Instr) : Prop :=
  i = .decFlush 0 ∨ ∃ m base size offset ts, i = .decPkt 0 m base size offset ts ∧ base.toNat + size.toNat ≤ 2 ^ 32

/-- A command that neither resets the decoder nor is accepted by it: only the configuration of an unlocked decoder can
change. -/
structure Dec.Kept (d d' : Dec) : Prop where
  locked : d'.locked = d.locked
  warnNoCfg : d'.warnNoCfg = d.warnNoCfg
  fill : d'.fill = d.fill
  auCnt : d'.auCnt = d.auCnt
  frozen : d.locked = true → d' = d

theorem Dec.Kept.of_eq {d d' : Dec} (h : d' = d) : Dec.Kept d d' := by
  subst h
  exact ⟨rfl, rfl, rfl, rfl, fun _ => rfl⟩

theorem Effect.wrreg_decKept {rsv addr : BitVec 12} {data : Word} (h : Effect (.wrreg rsv addr data) s t) :
    Dec.Kept s.dec t.dec := by
  obtain ⟨-, ⟨-, rfl⟩ | ⟨r, u, -, hacc, hul, rfl⟩⟩ := h
  · exact .of_eq rfl
  · rw [advance_dec]
    obtain hdec | ⟨rfl, hdec⟩ := regWrite_dec_eq s r (data &&& r.wmask)
    · exact .of_eq hdec
    · cases hacc
      have hopen : s.dec.locked = false := hul
      rw [hdec]
      exact ⟨rfl, rfl, rfl, rfl, by simp [hopen]⟩

/-- What an accepted data command does to the decoder: LOCK_DEC to its setup, and access units (41_decoder R131, R134,
R143). -/
theorem exec_decodesData (hacc : DecodesData i) (h : exec i s = .next t) :
    t.dec.setup = (lockedDec s.dec).setup ∧ EmitsAus s t := by
  obtain rfl | ⟨m, base, size, offset, ts, rfl, hrange⟩ := hacc
  · have ht : t = advance (finalize (lockDec s)) 1 := by cases h; rfl
    subst ht
    exact ⟨by simpa using finalize_setup (lockDec s), Effect.decFlush_aus (rsv := 0) ⟨rfl, rfl⟩⟩
  · rw [exec_decPkt hrange] at h
    cases h
    exact ⟨by simpa using decodeAccepted_setup m base.toNat size.toNat offset.toNat ts s,
      (emitsAus_decodeAccepted ..).advance 5⟩

/-- What any other command does to the decoder: it resets it, or keeps its lock, warning, FILL and counter and emits no
access unit. -/
theorem exec_not_decodesData (hacc : ¬ DecodesData i) (h : exec i s = .next t) :
    (∃ enc, i = .reset 0 enc true ∧ t.dec.locked = false ∧ t.dec.warnNoCfg = false) ∨
      Dec.Kept s.dec t.dec ∧ (newEvents s t).filterMap Event.au? = [] := by
  obtain hraise | heffect := exec_inv h
  · exact .inr ⟨.of_eq hraise.units.2, hraise.responses.aus⟩
  cases i with
  | reset rsv enc dec =>
    cases dec with
    | false => exact .inr ⟨.of_eq heffect.reset_dec, heffect.reset_responses.aus⟩
    | true =>
      obtain ⟨rfl, rfl⟩ := heffect
      exact .inl ⟨enc, rfl, rfl, rfl⟩
  | wrreg rsv addr data => exact .inr ⟨heffect.wrreg_decKept, heffect.wrreg_responses.aus⟩
  | rdreg rsv addr => exact .inr ⟨.of_eq heffect.rdreg_units.2, heffect.rdreg_responses.aus⟩
  | encAu rsv base size pfx dts => exact .inr ⟨.of_eq heffect.encAu_dec, heffect.encAu_no_aus⟩
  | decPkt rsv m base size offset ts =>
    obtain ⟨rfl, hrange, -⟩ := heffect
    exact absurd (.inr ⟨m, base, size, offset, ts, rfl, hrange⟩) hacc
  | decFlush rsv =>
    obtain ⟨rfl, -⟩ := heffect
    exact absurd (.inl rfl) hacc

/-! ### The locks -/

theorem encConfig_congr (h : t.enc = s.enc) : encConfig t = encConfig s := by
  simp [encConfig, regRead, h]

/-- An unlocked encoder is locked by exactly an accepted ENC_AU (10_state R33). -/
theorem exec_enc_locked_iff (h : exec i s = .next t) (hopen : s.enc.locked = false) :
    t.enc.locked = true ↔ EncodesAu i s := by
  by_cases hacc : EncodesAu i s
  · simp [hacc, (exec_encodesAu hacc h).1]
  · obtain ⟨dec, -, henc⟩ | ⟨hkept, -⟩ := exec_not_encodesAu hacc h
    · simp [hacc, henc, Enc.reset]
    · simp [hacc, hkept.locked, hopen]

/-- A locked encoder keeps its lock and configuration until it is reset (10_state R33). -/
theorem exec_enc_frozen (h : exec i s = .next t) (hl : s.enc.locked = true) :
    (t.enc.locked = true ∧ encConfig t = encConfig s) ∨ ∃ dec, i = .reset 0 true dec := by
  by_cases hacc : EncodesAu i s
  · obtain ⟨hlocked, hconfig, -, -⟩ := exec_encodesAu hacc h
    exact .inl ⟨hlocked, hconfig⟩
  · obtain ⟨dec, hi, -⟩ | ⟨hkept, -⟩ := exec_not_encodesAu hacc h
    · exact .inr ⟨dec, hi⟩
    · exact .inl ⟨hkept.locked.trans hl, encConfig_congr (hkept.frozen hl)⟩

/-- After an accepted data command the decoder is as LOCK_DEC leaves it. -/
theorem exec_decodesData_locks (hacc : DecodesData i) (h : exec i s = .next t) :
    t.dec.locked = true ∧ t.dec.cfg = s.dec.cfg ∧ t.dec.warnNoCfg = (lockedDec s.dec).warnNoCfg := by
  obtain ⟨hcfg, hlocked, hwarn, -⟩ := Dec.setup_eq_iff.1 (exec_decodesData hacc h).1
  exact ⟨by simpa using hlocked, by simpa using hcfg, hwarn⟩

/-- An unlocked decoder is locked by exactly an accepted data command (10_state R33). -/
theorem exec_dec_locked_iff (h : exec i s = .next t) (hopen : s.dec.locked = false) :
    t.dec.locked = true ↔ DecodesData i := by
  by_cases hacc : DecodesData i
  · simp [hacc, (exec_decodesData_locks hacc h).1]
  · obtain ⟨enc, -, hlocked, -⟩ | ⟨hkept, -⟩ := exec_not_decodesData hacc h
    · simp [hacc, hlocked]
    · simp [hacc, hkept.locked, hopen]

/-- A locked decoder keeps its lock, configuration and warning until it is reset (10_state R31, R33). -/
theorem exec_dec_frozen (h : exec i s = .next t) (hl : s.dec.locked = true) :
    (t.dec.locked = true ∧ t.dec.cfg = s.dec.cfg ∧ t.dec.warnNoCfg = s.dec.warnNoCfg) ∨ ∃ enc, i = .reset 0 enc true := by
  by_cases hacc : DecodesData i
  · have hlocks := exec_decodesData_locks hacc h
    rw [lockedDec_of_locked hl] at hlocks
    exact .inl hlocks
  · obtain ⟨enc, hi, -, -⟩ | ⟨hkept, -⟩ := exec_not_decodesData hacc h
    · exact .inr ⟨enc, hi⟩
    · rw [hkept.frozen hl]
      exact .inl ⟨hl, rfl, rfl⟩

/-- The lock brings the warning exactly when no configuration was supplied (10_state R31). -/
theorem exec_dec_warns (h : exec i s = .next t) (hopen : s.dec.locked = false) (hl : t.dec.locked = true) :
    t.dec.warnNoCfg = (s.dec.warnNoCfg || !s.dec.cfg.valid) := by
  obtain ⟨-, -, hwarn⟩ := exec_decodesData_locks ((exec_dec_locked_iff h hopen).1 hl) h
  rw [hwarn, lockedDec_of_unlocked hopen]

/-- Without a lock the warning is kept, or cleared by a reset. -/
theorem exec_dec_warn_kept (h : exec i s = .next t) (hopen : s.dec.locked = false) (hopen' : t.dec.locked = false) :
    t.dec.warnNoCfg = s.dec.warnNoCfg ∨ (∃ enc, i = .reset 0 enc true) ∧ t.dec.warnNoCfg = false := by
  have hacc : ¬ DecodesData i := by
    rw [← exec_dec_locked_iff h hopen, hopen']
    exact Bool.false_ne_true
  obtain ⟨enc, hi, -, hwarn⟩ | ⟨hkept, -⟩ := exec_not_decodesData hacc h
  · exact .inr ⟨⟨enc, hi⟩, hwarn⟩
  · exact .inl hkept.warnNoCfg

/-- The warning stands only with the lock (10_state R31). -/
theorem Dec.Sound.locked_of_warn {d : Dec} (h : d.Sound) (hwarn : d.warnNoCfg = true) : d.locked = true := by
  have hexact := h.warnExact
  rw [hwarn] at hexact
  exact (Bool.and_eq_true_iff.1 hexact.symm).1

end Sys2Proof.Machine

namespace Sys2Proof.Proofs

open Sys2Proof.Machine Sys2Proof.Claim

/-- Settles O30: a clause each, from what a command does to a unit's lock. -/
theorem locksGuardConfiguration : Obligations.LocksGuardConfiguration := by
  intro i s t h
  refine ⟨exec_enc_locked_iff h, exec_enc_frozen h, exec_dec_locked_iff h, exec_dec_frozen h, exec_dec_warns h,
    exec_dec_warn_kept h, fun hinv hwarn => ?_⟩
  exact (exec_decSound h hinv.decSound).locked_of_warn hwarn

/-- Settles O32: an accepted command of the unit counts what it emits; any other that does not reset it counts and emits
nothing of the kind. -/
theorem countersCountEvents : Obligations.CountersCountEvents := by
  intro i s t h
  refine ⟨fun hreset => ?_, fun hreset => ?_⟩
  · by_cases hacc : EncodesAu i s
    · obtain ⟨-, -, hau, hfrag⟩ := exec_encodesAu hacc h
      exact ⟨hfrag, by rw [if_pos (encodesAu_iff.1 hacc), hau]⟩
    · obtain ⟨dec, hi, -⟩ | ⟨hkept, hnone⟩ := exec_not_encodesAu hacc h
      · exact absurd hi (hreset dec)
      · rw [if_neg (mt encodesAu_iff.2 hacc)]
        simp [hnone, hkept.fragCnt, hkept.auCnt]
  · by_cases hacc : DecodesData i
    · exact (exec_decodesData hacc h).2.aus.1
    · obtain ⟨enc, hi, -, -⟩ | ⟨hkept, hnone⟩ := exec_not_decodesData hacc h
      · exact absurd hi (hreset enc)
      · simp [hnone, hkept.auCnt]

/-- Settles O33: an accepted data command that emits no access unit does not lower FILL, and no other command but a reset
changes it. -/
theorem flushIsTheOnlyWayBack : Obligations.FlushIsTheOnlyWayBack := by
  intro i s t h hfall
  by_cases hacc : DecodesData i
  · obtain ⟨-, hfill⟩ := (exec_decodesData hacc h).2.aus
    exact .inl fun hnone => absurd (hfill hnone) (Nat.not_le.2 hfall)
  · obtain ⟨enc, hi, -, -⟩ | ⟨hkept, -⟩ := exec_not_decodesData hacc h
    · exact .inr ⟨enc, hi⟩
    · exact absurd hkept.fill (Nat.ne_of_lt hfall)

end Sys2Proof.Proofs
end

section
/-! The invariant over whole runs: after power-on, through the host's moves, and in every reachable state (10_state R46,
R47). -/

namespace Sys2Proof.Machine

variable {s : State}

/-! ### Power-on -/

theorem Dec.powerOn_sound {c : Nat} (hmin : 8 ≤ c) (hmax : c ≤ 8191) : (Dec.powerOn c).Sound := by
  have hzero : (Dec.powerOn c).acc.take 7 = List.replicate 7 0x00#8 := by
    simp only [Dec.powerOn, List.take_replicate]
    rw [Nat.min_eq_left (by omega)]
  exact ⟨⟨hmin, le_rfl, by change 7 ≤ c; omega, by simp [Dec.powerOn], fun _ => hzero⟩, hmax, rfl,
    fun _ => ⟨rfl, rfl, hzero, rfl, rfl, rfl, rfl⟩⟩

theorem State.resetWith_inv {c : Nat} (hmin : 8 ≤ c) (hmax : c ≤ 8191) : (State.resetWith c).Inv :=
  State.inv_iff.2 ⟨Dec.powerOn_sound hmin hmax, Enc.reset_sound, Err.clear_legal, by simp [State.LogWf, State.resetWith],
    reset_imem_wf, le_rfl⟩

/-! ### The host's moves -/

theorem hostWrite_inv (h : s.Inv) (a : Word) (b : Byte) : (hostWrite a b s).Inv := by
  obtain ⟨hdec, henc, herr, hlog, himem, hcp⟩ := State.inv_iff.1 h
  exact State.inv_iff.2 ⟨hdec, henc, herr, hlog, hostWrite_wf himem a b, hcp⟩

theorem hostAppend_inv (h : s.Inv) (ws : List Word) : (hostAppend ws s).Inv := by
  obtain ⟨hdec, henc, herr, hlog, himem, hcp⟩ := State.inv_iff.1 h
  refine State.inv_iff.2 ⟨hdec, henc, herr, hlog, himem, ?_⟩
  rw [hostAppend_cp, hostAppend_stream, List.length_append]
  omega

theorem powerOn_inv (h : s.Inv) : (powerOn s).Inv := by
  obtain ⟨hdec, -, -, hlog, himem, -⟩ := State.inv_iff.1 h
  exact State.inv_iff.2 ⟨decReset_sound (s := encReset s) hdec.ok hdec.capMax, Enc.reset_sound, Err.clear_legal, hlog,
    himem, le_rfl⟩

/-! ### Reachable states -/

theorem Reachable.inv (h : Reachable s) : s.Inv := by
  induction h with
  | reset c hc => exact State.resetWith_inv hc.1 hc.2
  | hostWrite a b _ ih => exact hostWrite_inv ih a b
  | hostAppend ws _ ih => exact hostAppend_inv ih ws
  | powerOn _ ih => exact powerOn_inv ih
  | core _ hstep ih => exact step_keeps_inv hstep ih

/-- Without a configuration the access unit a flush would emit has a zero header (41_decoder R142). -/
theorem finalAu_zero_header {d : Dec} (h : d.Ok) (hv : d.cfg.valid = false) :
    (finalAu d).bytes.take 7 = List.replicate 7 0x00#8 := by
  rw [finalAu_eq h, List.take_left' (headerBytes_length ..)]
  simp [headerBytes, hv]

end Sys2Proof.Machine

namespace Sys2Proof.Proofs

open Sys2Proof.Machine

/-- Settles O26: each part of the invariant of the reset values. -/
theorem resetMeetsInvariant : Obligations.ResetMeetsInvariant :=
  ⟨State.resetWith_inv (c := Config.resetCap) (by decide) (by decide), fun _ => State.resetWith_inv⟩

/-- Settles O29: reachable states meet the invariant, by induction on the run. -/
theorem everyReachableStateIsSound : Obligations.EveryReachableStateIsSound := by
  intro s h
  have hinv := h.inv
  exact ⟨hinv.fillBounds.1, hinv.fillBounds.2, hinv.capLegal.2, hinv.errLegal.1, finalAu_zero_header hinv.decOk,
    hinv.logWf⟩

end Sys2Proof.Proofs
end

section
/-! The register map (10_state R42, R43), and systems of several cores (10_state R49). -/

namespace Sys2Proof.Machine

/-! ### The register map -/

/-- The address column of 10_state R42: the multiples of 4 up to 0x044. -/
theorem Reg.mem_addrs_iff (n : Nat) : n ∈ Reg.all.map (fun r => r.addr.toNat) ↔ n % 4 = 0 ∧ n ≤ 0x044 := by
  simp [Reg.all, Reg.addr]
  omega

theorem Reg.ofAddr_eq_none_iff (a : BitVec 12) :
    Reg.ofAddr a = none ↔ a.toNat ∉ Reg.all.map (fun r => r.addr.toNat) := by
  simp only [Reg.ofAddr, List.find?_eq_none, beq_iff_eq, List.mem_map, not_exists, not_and, BitVec.toNat_inj]

theorem Reg.ofAddr_addr (r : Reg) : Reg.ofAddr r.addr = some r := by cases r <;> rfl

/-! ### Several cores -/

theorem System.eq_of_cores {y z : System} (h : y.cores = z.cores) : y = z := by
  cases y
  cases z
  exact congrArg System.mk h

/-- A core after it has executed one command, if it has one to execute. -/
def State.stepOrStay (s : State) : State :=
  match step s with
  | .next t => t
  | .fault _ => s
  | .refused _ => s

/-- A step of core `n` modifies the list of states at `n` alone. -/
theorem System.stepAt_cores (y : System) (n : Nat) : (y.stepAt n).cores = y.cores.modify n State.stepOrStay := by
  unfold System.stepAt
  rw [List.modify_eq_set_getElem?]
  cases hn : y.cores[n]? with
  | none => rfl
  | some s =>
    have hset : y.cores.set n s = y.cores := by
      obtain ⟨hlt, rfl⟩ := List.getElem?_eq_some_iff.1 hn
      exact List.set_getElem_self hlt
    cases hstep : step s <;> simp [State.stepOrStay, hstep, hset]

end Sys2Proof.Machine

namespace Sys2Proof.Proofs

open Sys2Proof.Machine

/-- Settles O12: an address selects no register exactly when it is not in the map's address column. -/
theorem registerMapIsExact : Obligations.RegisterMapIsExact := by
  refine ⟨fun a => ?_, fun a r => ⟨fun h => (Reg.addr_of_ofAddr h).symm, ?_⟩, rfl⟩
  · rw [Reg.ofAddr_eq_none_iff, Reg.mem_addrs_iff]
    omega
  · rintro rfl
    exact Reg.ofAddr_addr r

/-- Settles O37: modifications of a list at different places commute. -/
theorem instancesAreIndependent : Obligations.InstancesAreIndependent := by
  intro y m n hmn
  refine ⟨?_, ?_⟩
  · refine System.eq_of_cores ?_
    simp only [System.stepAt_cores]
    exact List.modify_modify_ne _ _ _ hmn
  · rw [System.stepAt_cores, List.getElem?_modify_ne _ _ hmn]

end Sys2Proof.Proofs
end

section
/-! The words of a command as the decoder and the step count them (30_encoding R80 to R89, R99, R100). -/

namespace Sys2Proof

open Sys2Proof.Claim

theorem Op.ofCode_eq_none_iff (b : BitVec 8) : Op.ofCode b = none ↔ ∀ o : Op, b ≠ o.code := by
  constructor
  · rintro h o rfl
    simp at h
  · intro h
    cases ho : Op.ofCode b with
    | none => rfl
    | some o => exact absurd (Op.code_of_ofCode ho) (h o)

theorem Op.forall_iff {P : Op → Prop} :
    (∀ o, P o) ↔ P .reset ∧ P .wrreg ∧ P .rdreg ∧ P .encAu ∧ P .decPkt ∧ P .decFlush :=
  ⟨fun h => ⟨h _, h _, h _, h _, h _, h _⟩, fun ⟨_, _, _, _, _, _⟩ o => by cases o <;> assumption⟩

/-- The opcodes outside the map, as numbers (30_encoding R89). -/
theorem Op.ofCode_eq_none_iff_toNat (b : BitVec 8) :
    Op.ofCode b = none ↔ b.toNat ∉ [0x01, 0x02, 0x03, 0x10, 0x20, 0x21] := by
  simp [Op.ofCode_eq_none_iff, Op.forall_iff, Op.code, ← BitVec.toNat_inj]

/-- The claims' table of lengths is the decoder's (30_encoding R88). -/
theorem lengthOf_toNat (b : BitVec 8) : lengthOf b.toNat = commandWords b := by
  cases ho : Op.ofCode b with
  | none =>
    have hb := (Op.ofCode_eq_none_iff_toNat b).1 ho
    simp only [List.mem_cons, not_or] at hb
    simp [commandWords, ho, lengthOf, hb]
  | some o =>
    obtain rfl := Op.code_of_ofCode ho
    cases o <;> rfl

theorem lengthOf_word (cw : Word) : lengthOf (cw.toNat / 2 ^ 24) = commandWords (opField cw) := by
  rw [← toNat_opField, lengthOf_toNat]

/-- A rejected opcode is the OP of the front word (30_encoding R97). -/
theorem decode_cons_illegal {cw : Word} {rest : List Word} {op : BitVec 8} :
    decode (cw :: rest) = .error (.illegalOpcode op) ↔ op = opField cw ∧ Op.ofCode op = none := by
  cases ho : Op.ofCode (opField cw) with
  | none =>
    simp only [decode, ho, Except.error.injEq, DecodeReject.illegalOpcode.injEq]
    exact ⟨by rintro rfl; exact ⟨rfl, ho⟩, fun h => h.1.symm⟩
  | some o =>
    simp only [decode, ho]
    refine ⟨fun h => ?_, by rintro ⟨rfl, h⟩; simp [ho] at h⟩
    cases Machine.decodeOp_error h

/-- A command word without all its operand words gives no command (30_encoding R100). -/
theorem decode_cons_short {cw : Word} {rest : List Word} (h : rest.length + 1 < commandWords (opField cw)) :
    ∃ o, decode (cw :: rest) = .error (.incomplete o) := by
  cases ho : Op.ofCode (opField cw) with
  | none => simp [commandWords, ho] at h
  | some o =>
    simp only [decode, ho]
    cases hd : decodeOp o cw rest with
    | error r => exact ⟨o, by rw [Machine.decodeOp_error hd]⟩
    | ok i =>
      rw [Op.code_of_ofCode ho] at h
      have := (decodeOp_ok hd).2
      omega

/-! ### The decoder reads the encoder's words -/

theorem field_of_toNat {w : Word} {lo n : Nat} {x : BitVec n} (h : w.toNat / 2 ^ lo % 2 ^ n = x.toNat) :
    w.extractLsb' lo n = x :=
  BitVec.eq_of_toNat_eq (by rw [toNat_field, h])

theorem bit_of_toNat {w : Word} {k : Nat} {b : Bool} (h : w.toNat / 2 ^ k % 2 = b.toNat) : w.getLsbD k = b := by
  rw [bit_eq, h]
  cases b <;> rfl

/-- The decoder reads a command from its command word and its operand words (30_encoding R99). -/
theorem decode_encode_append (i : Instr) (rest : List Word) : decode (encode i ++ rest) = .ok i := by
  have hop : decode (encode i ++ rest) = decodeOp i.op (commandWord i) (operandWords i ++ rest) := by
    simp [encode, decode, opField_commandWord]
  rw [hop]
  cases i with
  | reset rsv enc dec =>
    have hrsv := rsv.isLt; have henc := enc.toNat_lt; have hdec := dec.toNat_lt
    simp only [Instr.op, decodeOp]
    rw [field_of_toNat (x := rsv), bit_of_toNat (b := enc), bit_of_toNat (b := dec)] <;> rw [reset_word] <;> omega
  | wrreg rsv addr data =>
    have hrsv := rsv.isLt; have haddr := addr.isLt
    simp only [Instr.op, decodeOp, operandWords, List.cons_append]
    rw [field_of_toNat (x := rsv), field_of_toNat (x := addr)] <;> rw [wrreg_word] <;> omega
  | rdreg rsv addr =>
    have hrsv := rsv.isLt; have haddr := addr.isLt
    simp only [Instr.op, decodeOp]
    rw [field_of_toNat (x := rsv), field_of_toNat (x := addr)] <;> rw [rdreg_word] <;> omega
  | encAu rsv base size pfx dts =>
    have hrsv := rsv.isLt
    simp only [Instr.op, decodeOp, operandWords, List.cons_append]
    rw [field_of_toNat (x := rsv) (by rw [encAu_word]; omega)]
  | decPkt rsv m base size offset ts =>
    have hrsv := rsv.isLt; have hm := m.toNat_lt
    simp only [Instr.op, decodeOp, operandWords, List.cons_append]
    rw [field_of_toNat (x := rsv), bit_of_toNat (b := m)] <;> rw [decPkt_word] <;> omega
  | decFlush rsv =>
    have hrsv := rsv.isLt
    simp only [Instr.op, decodeOp]
    rw [field_of_toNat (x := rsv) (by rw [decFlush_word]; omega)]

theorem decode_encode (i : Instr) : decode (encode i) = .ok i := by
  simpa using decode_encode_append i []

end Sys2Proof

namespace Sys2Proof.Machine

variable {s t : State} {cw : Word}

theorem pendingWords_eq_cons (h : s.stream[s.cp]? = some cw) : pendingWords s = cw :: s.stream.drop (s.cp + 1) := by
  rw [pendingWords, List.drop_eq_getElem?_toList_append, h]
  rfl

theorem step_of_reject {r : DecodeReject} (h : decode (pendingWords s) = .error r) : step s = stepRejected s r := by
  simp only [step, h]

/-- A step consumes the words OP alone gives (30_encoding R88). -/
theorem step_cp (hcw : s.stream[s.cp]? = some cw) (h : step s = .next t) : t.cp = s.cp + commandWords (opField cw) := by
  obtain ⟨i, hdec, hexec⟩ | ⟨op, hdec, rfl⟩ := step_inv h
  · obtain ⟨_, _, hwords, hop, -, -⟩ := decode_ok hdec
    rw [pendingWords_eq_cons hcw] at hwords
    cases hwords
    rw [(exec_surroundings hexec).1, hop]
  · rw [pendingWords_eq_cons hcw] at hdec
    obtain ⟨rfl, -⟩ := decode_cons_illegal.1 hdec
    rfl

end Sys2Proof.Machine

namespace Sys2Proof.Proofs

open Sys2Proof.Machine Sys2Proof.Claim

/-- Settles O5: the decoder rejects an empty port and a command short of operand words by name. -/
theorem stepWaitsForAllWords : Obligations.StepWaitsForAllWords := by
  refine fun s => ⟨fun hend => ?_, fun cw hcw hshort => ?_⟩
  · refine step_of_reject (r := .noCommand) ?_
    rw [pendingWords, List.drop_eq_nil_of_le hend]
    rfl
  · obtain ⟨hlt, -⟩ := List.getElem?_eq_some_iff.1 hcw
    rw [lengthOf_word] at hshort
    obtain ⟨o, hdec⟩ := decode_cons_short (cw := cw) (rest := s.stream.drop (s.cp + 1)) (by
      rw [List.length_drop]
      omega)
    rw [← pendingWords_eq_cons hcw] at hdec
    exact step_of_reject hdec

/-- Settles O6: the lengths of the decoder's commands and of the error entry, by the OP at `cp`. -/
theorem stepConsumesCommandLength : Obligations.StepConsumesCommandLength := by
  intro s t cw hcw h
  rw [lengthOf_word]
  exact step_cp hcw h

end Sys2Proof.Proofs
end

section
/-! The errors of the commands (60_exceptions R180 to R184): each meaning makes R182's checks in R182's order, so it
answers with the error expected first, or has its effect. -/

namespace Sys2Proof.Machine

open Sys2Proof.Claim

variable {s t : State} {i : Instr}

theorem opByte_eq_code (i : Instr) : opByte i = i.op.code := by cases i <;> rfl

/-! ### Answering as expected -/

/-- `r` is how command `i` answers when `c` is the error expected of it: with the error entry of `c`, or, when none is
expected, with the command's effect (60_exceptions R183). -/
def Answers (i : Instr) (s : State) (r : Result) (c : Option (BitVec 8)) : Prop :=
  match c with
  | some c => ∃ e : ErrCode, e.code = c ∧
      r = .next (takeError (if i.op = .rdreg then emitResp s 0#32 else s) e i.op.code)
  | none => ∃ t, r = .next t ∧ Effect i s t

theorem Answers.raise (e : ErrCode) :
    Answers i s (raiseErr (if i.op = .rdreg then emitResp s 0#32 else s) e i.op) (some e.code) :=
  ⟨e, rfl, rfl⟩

theorem Answers.complete (h : Effect i s t) : Answers i s (.next t) none := ⟨t, rfl, h⟩

section

variable {r r' : Result} {c c' : Option (BitVec 8)}

/-- One check of a meaning, `p`, beside the same check of R182's order, `q`. -/
theorem Answers.ite {p q : Prop} [Decidable p] [Decidable q] (hpq : p ↔ q) (h : q → Answers i s r c)
    (h' : ¬ q → Answers i s r' c') : Answers i s (if p then r else r') (if q then c else c') := by
  by_cases hq : q
  · rw [if_pos (hpq.2 hq), if_pos hq]
    exact h hq
  · rw [if_neg (mt hpq.1 hq), if_neg hq]
    exact h' hq

/-- The first check of every command: its reserved bits (30_encoding R97). -/
theorem Answers.reserved {p : Prop} [Decidable ¬ p] (hp : p ↔ i.wellFormed = true) (h : p → Answers i s r c) :
    Answers i s (if ¬ p then raiseErr (if i.op = .rdreg then emitResp s 0#32 else s) .reservedBits i.op else r)
      (if i.wellFormed = false then some 0x02#8 else c) :=
  .ite (by simp [hp]) (fun _ => .raise .reservedBits) fun hwf => h (hp.2 (by simpa using hwf))

end

/-! ### The register map as R182's checks test it -/

theorem Reg.ofAddr_eq_none_iff_toNat (a : BitVec 12) : Reg.ofAddr a = none ↔ a.toNat % 4 ≠ 0 ∨ a.toNat > 0x044 := by
  rw [Reg.ofAddr_eq_none_iff, Reg.mem_addrs_iff]
  omega

theorem Reg.addr_toNat_eq_iff_err (r : Reg) : r.addr.toNat = 0x044 ↔ r = .err := by
  cases r <;> simp [Reg.addr]

/-- What is expected of a WRREG to a register of the map, by its access type (42_control R161). -/
theorem expectedError_wrreg (r : Reg) (data : Word) (s : State) :
    expectedError (.wrreg 0 r.addr data) s =
      match r.access with
      | .wc => none
      | .ro => some ErrCode.readOnly.code
      | .rwc u => if s.unitLocked u then some ErrCode.cfgLocked.code else none := by
  cases r <;> rfl

/-! ### The commands -/

section

variable (s)

theorem answers_reset (rsv : BitVec 22) (enc dec : Bool) :
    Answers (.reset rsv enc dec) s (exec (.reset rsv enc dec) s) (expectedError (.reset rsv enc dec) s) :=
  .reserved beq_iff_eq.symm fun hrsv => .complete ⟨hrsv, rfl⟩

theorem answers_wrreg (rsv addr : BitVec 12) (data : Word) :
    Answers (.wrreg rsv addr data) s (exec (.wrreg rsv addr data) s) (expectedError (.wrreg rsv addr data) s) := by
  refine .reserved beq_iff_eq.symm fun hrsv => ?_
  subst hrsv
  cases hr : Reg.ofAddr addr with
  | none =>
    simp only [if_pos ((Reg.ofAddr_eq_none_iff_toNat addr).1 hr)]
    exact .raise .badReg
  | some r =>
    obtain rfl := Reg.addr_of_ofAddr hr
    change Answers _ s _ (expectedError (.wrreg 0 r.addr data) s)
    rw [expectedError_wrreg]
    cases hacc : r.access with
    | wc =>
      obtain rfl := Reg.access_wc hacc
      exact .complete ⟨rfl, .inl ⟨hr, rfl⟩⟩
    | ro =>
      simp only [hacc]
      exact .raise .readOnly
    | rwc u =>
      simp only [hacc]
      exact .ite .rfl (fun _ => .raise .cfgLocked) fun hopen =>
        .complete ⟨rfl, .inr ⟨r, u, hr, hacc, by simpa using hopen, rfl⟩⟩

theorem answers_rdreg (rsv addr : BitVec 12) :
    Answers (.rdreg rsv addr) s (exec (.rdreg rsv addr) s) (expectedError (.rdreg rsv addr) s) := by
  refine .reserved beq_iff_eq.symm fun hrsv => ?_
  cases hr : Reg.ofAddr addr with
  | none =>
    simp only [if_pos ((Reg.ofAddr_eq_none_iff_toNat addr).1 hr)]
    exact .raise .badReg
  | some r =>
    simp only [if_neg (mt (Reg.ofAddr_eq_none_iff_toNat addr).2 (by simp [hr]))]
    exact .complete ⟨hrsv, r, hr, rfl⟩

theorem answers_encAu (rsv : BitVec 24) (base size pfx dts : Word) :
    Answers (.encAu rsv base size pfx dts) s (exec (.encAu rsv base size pfx dts) s)
      (expectedError (.encAu rsv base size pfx dts) s) :=
  have hcycle : s.enc.cycle = 0 ↔ s.enc.cycle.toNat = 0 := (BitVec.toNat_inj (y := 0)).symm
  .reserved beq_iff_eq.symm fun hrsv =>
  .ite (rangeFits_eq_false_iff base size) (fun _ => .raise .badRange) fun hrange =>
  .ite .rfl (fun _ => .raise .encBadPrefix) fun hpfx =>
  .ite (or_congr_right hcycle) (fun _ => .raise .encCfgInvalid) fun hcfg =>
  .ite .rfl (fun _ => .raise .encAuTooLong) fun hlong =>
  .complete ⟨hrsv, ⟨by omega, by omega, by omega, mt hcycle.1 (not_or.1 hcfg).2, by omega⟩, rfl⟩

theorem answers_decPkt (rsv : BitVec 23) (m : Bool) (base size offset ts : Word) :
    Answers (.decPkt rsv m base size offset ts) s (exec (.decPkt rsv m base size offset ts) s)
      (expectedError (.decPkt rsv m base size offset ts) s) :=
  .reserved beq_iff_eq.symm fun hrsv =>
  .ite (rangeFits_eq_false_iff base size) (fun _ => .raise .badRange) fun hrange =>
  .complete ⟨hrsv, by omega, rfl⟩

theorem answers_decFlush (rsv : BitVec 24) :
    Answers (.decFlush rsv) s (exec (.decFlush rsv) s) (expectedError (.decFlush rsv) s) :=
  .reserved beq_iff_eq.symm fun hrsv => .complete ⟨hrsv, rfl⟩

theorem answers_exec (i : Instr) : Answers i s (exec i s) (expectedError i s) := by
  cases i with
  | reset => exact answers_reset ..
  | wrreg => exact answers_wrreg ..
  | rdreg => exact answers_rdreg ..
  | encAu => exact answers_encAu ..
  | decPkt => exact answers_decPkt ..
  | decFlush => exact answers_decFlush ..

end

theorem exec_of_expectedError {c : BitVec 8} (h : expectedError i s = some c) :
    ∃ e : ErrCode, e.code = c ∧
      exec i s = .next (takeError (if i.op = .rdreg then emitResp s 0#32 else s) e i.op.code) := by
  have hanswers := answers_exec s i
  rwa [h] at hanswers

theorem exec_of_expectedError_none (h : expectedError i s = none) : ∃ t, exec i s = .next t ∧ Effect i s t := by
  have hanswers := answers_exec s i
  rwa [h] at hanswers

/-! ### What becomes of ERR -/

/-- A WRREG without an error clears ERR when it is to ERR, and leaves it otherwise (60_exceptions R184). -/
theorem Effect.wrreg_err {rsv addr : BitVec 12} {data : Word} (h : Effect (.wrreg rsv addr data) s t) :
    t.err = if addr.toNat = 0x044 then { code := 0, op := 0 } else s.err := by
  obtain ⟨-, ⟨hr, rfl⟩ | ⟨r, u, hr, hacc, -, rfl⟩⟩ := h
  · obtain rfl := Reg.addr_of_ofAddr hr
    rfl
  · obtain rfl := Reg.addr_of_ofAddr hr
    have hne : r.addr.toNat ≠ 0x044 := by
      rw [Ne, Reg.addr_toNat_eq_iff_err]
      rintro rfl
      cases hacc
    rw [if_neg hne, advance_err, regWrite_err]

/-- Any other command without an error leaves ERR (60_exceptions R184). -/
theorem Effect.err_of_ne_wrreg (h : Effect i s t) (hop : i.op ≠ .wrreg) : t.err = s.err := by
  cases i with
  | reset rsv enc dec =>
    obtain ⟨-, rfl⟩ := h
    simp
  | wrreg => exact absurd rfl hop
  | rdreg rsv addr =>
    obtain ⟨-, r, -, rfl⟩ := h
    rfl
  | encAu rsv base size pfx dts =>
    obtain ⟨-, hacc, rfl⟩ := h
    simp [encodeAccepted_eq hacc.mtu]
  | decPkt rsv m base size offset ts =>
    obtain ⟨-, -, rfl⟩ := h
    exact decodeAccepted_err ..
  | decFlush rsv =>
    obtain ⟨-, rfl⟩ := h
    simp

/-- A word whose OP is not in the map takes the error entry ILLEGAL_OPCODE (30_encoding R97). -/
theorem step_of_illegal {cw : Word} (hcw : s.stream[s.cp]? = some cw) (hop : Op.ofCode (opField cw) = none) :
    step s = .next (takeError s .illegalOpcode (opField cw)) := by
  refine step_of_reject (r := .illegalOpcode (opField cw)) ?_
  rw [pendingWords_eq_cons hcw]
  exact decode_cons_illegal.2 ⟨rfl, hop⟩

end Sys2Proof.Machine

namespace Sys2Proof.Proofs

open Sys2Proof.Machine Sys2Proof.Claim

/-- Settles O8: every command answers as expected, and the error entry is the state the statement writes out. -/
theorem errorsArePreciseAndPrioritised : Obligations.ErrorsArePreciseAndPrioritised := by
  refine ⟨fun i s c hc => ?_, fun i s hnone => ?_, fun s cw hcw hop => ?_⟩
  · obtain ⟨e, rfl, hexec⟩ := exec_of_expectedError hc
    rw [hexec, opByte_eq_code, lengthOf_toNat]
    cases i <;> rfl
  · obtain ⟨t, hexec, heffect⟩ := exec_of_expectedError_none hnone
    refine ⟨t, hexec, ?_⟩
    cases i with
    | wrreg => exact heffect.wrreg_err
    | _ => exact heffect.err_of_ne_wrreg (by simp [Instr.op])
  · rw [← toNat_opField] at hop ⊢
    rw [← Op.ofCode_eq_none_iff_toNat] at hop
    have hone : commandWords (opField cw) = 1 := by simp [commandWords, hop]
    rw [step_of_illegal hcw hop, takeError, hone, BitVec.ofNat_toNat, BitVec.setWidth_eq]
    rfl

end Sys2Proof.Proofs
end

section
/-! The AU-header (30_encoding R91, R92), and the assembler (R101, R102): a command line's words are the encoding of the
command it names. -/

namespace Sys2Proof.Machine

/-- The AU-header's two bytes are the 16-bit value `l * 8`, for `l` of 13 bits (30_encoding R91). -/
theorem auHdr_eq {l : Nat} (hl : l ≤ 8191) :
    ∃ b2 b3 : Byte, auHdr l = [0x00#8, 0x10#8, b2, b3] ∧ b2.toNat * 256 + b3.toNat = l * 8 := by
  refine ⟨_, _, rfl, ?_⟩
  have hlow : l &&& 0x1F = l % 32 := Nat.and_two_pow_sub_one_eq_mod l 5
  rw [hlow]
  simp only [BitVec.toNat_ofNat, Nat.shiftRight_eq_div_pow, Nat.shiftLeft_eq]
  omega

/-! ### Command lines -/

/-- An opcode and a field below it, joined by `or`, are their sum (30_encoding R101). -/
theorem toNat_opcode_or_setWidth {n : Nat} (op : Word) (x : BitVec n) (hn : n ≤ 24) (hop : op.toNat % 2 ^ 24 = 0) :
    (op ||| x.setWidth 32).toNat = op.toNat + x.toNat := by
  have hx : x.toNat < 2 ^ 24 := x.isLt.trans_le (Nat.pow_le_pow_right (by decide) hn)
  have hsum := Nat.two_pow_add_eq_or_of_lt hx (op.toNat / 2 ^ 24)
  rw [Nat.mul_div_cancel' (Nat.dvd_of_mod_eq_zero hop)] at hsum
  rw [BitVec.toNat_or, BitVec.toNat_setWidth, Nat.mod_eq_of_lt (by omega), hsum]

theorem words_reset (enc dec : Bool) : (AsmLine.reset enc dec).words = encode (.reset 0 enc dec) := by
  cases enc <;> cases dec <;> rfl

theorem words_wrreg (r : AsmReg) (data : Word) : (AsmLine.wrreg r data).words = encode (.wrreg 0 r.addr data) := by
  have hword : 0x02000000#32 ||| r.addr.setWidth 32 = commandWord (.wrreg 0 r.addr data) :=
    BitVec.eq_of_toNat_eq (by rw [toNat_opcode_or_setWidth _ _ (by decide) rfl, wrreg_word]; rfl)
  rw [encode, ← hword]
  rfl

theorem words_rdreg (r : AsmReg) : (AsmLine.rdreg r).words = encode (.rdreg 0 r.addr) := by
  have hword : 0x03000000#32 ||| r.addr.setWidth 32 = commandWord (.rdreg 0 r.addr) :=
    BitVec.eq_of_toNat_eq (by rw [toNat_opcode_or_setWidth _ _ (by decide) rfl, rdreg_word]; rfl)
  rw [encode, ← hword]
  rfl

theorem words_encAu (base size pfx dts : Word) :
    (AsmLine.encAu base size pfx dts).words = encode (.encAu 0 base size pfx dts) :=
  rfl

theorem words_decPkt (m : Bool) (base size offset ts : Word) :
    (AsmLine.decPkt m base size offset ts).words = encode (.decPkt 0 m base size offset ts) := by
  cases m <;> rfl

theorem words_decFlush : AsmLine.decFlush.words = encode (.decFlush 0) := rfl

theorem words_raw (ws : List Word) : (AsmLine.raw ws).words = ws := List.append_nil ws

/-! ### Pseudo-instructions -/

/-- A shift of an operand word is the shift of its number, cut to 32 bits (30_encoding R102; log entry 14). -/
theorem ofNat_shiftLeft (x : Word) (k : Nat) : BitVec.ofNat 32 (x.toNat <<< k) = x <<< k := rfl

/-- `PT | IL << 8` (30_encoding R102). -/
theorem words_encRtp (ssrc pt il srate : Word) : (AsmLine.encRtp ssrc pt il srate).words =
    [0x02000008#32, ssrc, 0x0200000C#32, BitVec.ofNat 32 (pt.toNat ||| (il.toNat <<< 8)), 0x02000010#32, srate] := by
  rw [BitVec.ofNat_or, ofNat_shiftLeft, BitVec.ofNat_toNat, BitVec.setWidth_eq]
  rfl

/-- `1 | PROFILE << 1 | SF << 3 | CH << 7` (30_encoding R102). -/
theorem words_decCfg (profile sf ch : Word) : (AsmLine.decCfg profile sf ch).words =
    [0x02000020#32, BitVec.ofNat 32 (1 ||| (profile.toNat <<< 1) ||| (sf.toNat <<< 3) ||| (ch.toNat <<< 7))] := by
  simp only [BitVec.ofNat_or, ofNat_shiftLeft]
  rfl

/-- No line of an expansion is a pseudo-instruction (30_encoding R102). -/
theorem words_of_mem_expand {l m : AsmLine} (h : m ∈ l.expand) : m.words = m.ownWords := by
  have hself : m.expand = [m] := by
    revert m
    cases l <;> simp [AsmLine.expand]
  rw [AsmLine.words, hself, List.flatMap_singleton]

theorem words_eq_flatten_expand (l : AsmLine) : l.words = (l.expand.map AsmLine.words).flatten := by
  rw [List.map_congr_left fun m hm => words_of_mem_expand hm, AsmLine.words, List.flatMap_def]

end Sys2Proof.Machine

namespace Sys2Proof.Proofs

open Sys2Proof.Machine

/-- Settles O17: the two bytes are the length times 8. -/
theorem auHeaderHoldsTheLength : Obligations.AuHeaderHoldsTheLength := by
  intro l hl
  obtain ⟨b2, b3, hhdr, hvalue⟩ := auHdr_eq hl
  exact ⟨b2, b3, hhdr, by omega, by omega⟩

/-- Settles O38: the decoder reads each command line's words as encoded, and the two texts are assembled by
computation. -/
theorem assemblerGivesTheWords : Obligations.AssemblerGivesTheWords := by
  refine ⟨fun enc dec => ?_, fun r data => ?_, fun r => ?_, fun b s p d => ?_, fun m b s o t => ?_, ?_, words_raw,
    fun _ _ => rfl, words_encRtp, words_decCfg, rfl, rfl, rfl, words_eq_flatten_expand, by decide, by decide⟩
  · rw [words_reset, decode_encode]
  · rw [words_wrreg, decode_encode]
  · rw [words_rdreg, decode_encode]
  · rw [words_encAu, decode_encode]
  · rw [words_decPkt, decode_encode]
  · rw [words_decFlush, decode_encode]

end Sys2Proof.Proofs
end

section
/-! The encoder's fragments (40_encoder R111 to R115): a slice of the splitter, with the header block of R115 and the
timestamp of R111, is the fragment the rules give. -/

namespace Sys2Proof.Machine

open Sys2Proof.Claim

/-- AUHDR's shifts and mask as arithmetic (30_encoding R90, R92). -/
theorem auHdr_eq_div_mod (l : Nat) :
    auHdr l = [0x00#8, 0x10#8, BitVec.ofNat 8 (l / 32), BitVec.ofNat 8 (l % 32 * 8)] := by
  have hlow : l &&& 0x1F = l % 32 := Nat.and_two_pow_sub_one_eq_mod l 5
  rw [auHdr, hlow, Nat.shiftRight_eq_div_pow, Nat.shiftLeft_eq]

theorem sliceFrag_eq_fragmentOf (s : State) (src l cap i : Nat) (dts : Word) :
    sliceFrag s (auHdr l) (dts % s.enc.cycle) cap src l i = fragmentOf s src l cap i dts := by
  rw [sliceFrag, fragmentOf, auHdr_length, auHdr_eq_div_mod, BitVec.umod_def, memRead]

end Sys2Proof.Machine

namespace Sys2Proof.Proofs

open Sys2Proof.Machine Sys2Proof.Claim

/-- Settles O14: an accepted ENC_AU does what `encodeAccepted_eq` says, and the splitter's slices are the fragments of
the rules. -/
theorem encAuEmitsTheFragments : Obligations.EncAuEmitsTheFragments := by
  intro s base size pfx dts h
  rw [exec_encAu h, encodeAccepted_eq h.mtu]
  simp only [sliceFrag_eq_fragmentOf]
  rfl

end Sys2Proof.Proofs
end

section
/-! The accumulator as 41_decoder R137 and R138 speak of it: `Tracks` says that a state shows, in every observable of the
decoder, what a `Held` says has become of another. Each operation of the decoder keeps it (R137 to R140). -/

namespace Sys2Proof.Machine

open Sys2Proof.Claim

/-! ### LOCK_DEC, and the count of fragments with several AU-headers -/

@[simp] theorem lockedDec_ts (d : Dec) : (lockedDec d).ts = d.ts := by unfold lockedDec; split <;> rfl
@[simp] theorem lockedDec_ovfCnt (d : Dec) : (lockedDec d).ovfCnt = d.ovfCnt := by unfold lockedDec; split <;> rfl
@[simp] theorem lockedDec_dropCnt (d : Dec) : (lockedDec d).dropCnt = d.dropCnt := by unfold lockedDec; split <;> rfl
@[simp] theorem lockedDec_multiCnt (d : Dec) : (lockedDec d).multiCnt = d.multiCnt := by unfold lockedDec; split <;> rfl
@[simp] theorem lockedDec_held (d : Dec) : (lockedDec d).held = d.held := by simp [Dec.held]

theorem lockDec_eq (s : State) : lockDec s = { s with dec := lockedDec s.dec } := by
  rw [← lockDec_dec]
  unfold lockDec
  split <;> rfl

@[simp] theorem noteMultiAu_dec (n : Nat) (s : State) : (noteMultiAu n s).dec =
    { s.dec with multiCnt := if 1 < n then s.dec.multiCnt + 1 else s.dec.multiCnt } := by
  unfold noteMultiAu
  split
  · simp [*, countUp]
  · simp [*]

@[simp] theorem noteMultiAu_of_one (s : State) : noteMultiAu 1 s = s := if_neg (Nat.lt_irrefl 1)

end Sys2Proof.Machine

namespace Sys2Proof.Claim

open Sys2Proof.Machine

/-! ### What is held, by itself -/

/-- What a decoder holds, with no access unit emitted yet. -/
def Held.start (d : Dec) : Held := { payload := d.held, ts := d.ts, aus := [], overflows := 0 }

/-- What a flush leaves (41_decoder R138). -/
def Held.flush (c : DecCfg) (h : Held) : Held := { h with payload := [], ts := 0, aus := h.aus ++ [h.au c] }

/-- What the copy of a chunk leaves (41_decoder R137, step 4). -/
def Held.copy (h : Held) (chunk : List Byte) (ts : Word) : Held := { h with payload := h.payload ++ chunk, ts := ts }

/-- What counting an overflow leaves (41_decoder R137, step 3). -/
def Held.countOverflow (h : Held) : Held := { h with overflows := h.overflows + 1 }

/-- The bytes emitted behind the headers, then those held. -/
def Held.bytes (h : Held) : List Byte := h.aus.flatMap (fun a => a.bytes.drop 7) ++ h.payload

variable {c : DecCfg} {cap : Nat} {ts : Word} {h : Held} {chunk : List Byte} {m : Bool}

theorem Held.append_of_fits (hfits : 7 + h.payload.length + chunk.length ≤ cap) :
    h.append c cap ts chunk = h.copy chunk ts := by
  rw [Held.append, if_neg (by omega)]
  rfl

theorem Held.append_of_overflow (hover : cap < 7 + h.payload.length + chunk.length) :
    h.append c cap ts chunk = (h.countOverflow.flush c).copy chunk ts := by
  rw [Held.append, if_pos hover]
  rfl

theorem Held.mark_of_unmarked (hm : m = false) : h.mark c m = h := by
  simp [Held.mark, hm]

theorem Held.mark_of_empty (he : h.payload = []) : h.mark c m = h := by
  simp [Held.mark, he]

theorem Held.mark_of_held (hm : m = true) (he : h.payload ≠ []) : h.mark c m = h.flush c := by
  simp [Held.mark, hm, he, Held.flush]

/-- The access unit carries the payload behind its header. -/
theorem Held.au_payload (c : DecCfg) (h : Held) : (h.au c).bytes.drop 7 = h.payload :=
  List.drop_left' (headerBytes_length ..)

@[simp] theorem Held.flush_bytes (c : DecCfg) (h : Held) : (h.flush c).bytes = h.bytes := by
  simp [Held.bytes, Held.flush, Held.au_payload]

@[simp] theorem Held.copy_bytes (h : Held) (chunk : List Byte) (ts : Word) :
    (h.copy chunk ts).bytes = h.bytes ++ chunk := by
  simp [Held.bytes, Held.copy]

@[simp] theorem Held.append_bytes (c : DecCfg) (cap : Nat) (ts : Word) (h : Held) (chunk : List Byte) :
    (h.append c cap ts chunk).bytes = h.bytes ++ chunk := by
  obtain hfits | hover := le_or_gt (7 + h.payload.length + chunk.length) cap
  · rw [Held.append_of_fits hfits, Held.copy_bytes]
  · rw [Held.append_of_overflow hover, Held.copy_bytes, Held.flush_bytes]
    rfl

@[simp] theorem Held.mark_bytes (c : DecCfg) (m : Bool) (h : Held) : (h.mark c m).bytes = h.bytes := by
  unfold Held.mark
  split
  · exact Held.flush_bytes c h
  · rfl

/-- No byte of the chunks is lost or moved (41_decoder R140). -/
theorem Held.foldl_append_bytes (c : DecCfg) (cap : Nat) (ts : Word) (chunks : List (List Byte)) (h : Held) :
    (chunks.foldl (Held.append c cap ts) h).bytes = h.bytes ++ chunks.flatten := by
  induction chunks generalizing h with
  | nil => simp
  | cons chunk chunks ih => simp [ih]

/-- One chunk emits at most one access unit (41_decoder R132). -/
theorem Held.append_aus_length_le (c : DecCfg) (cap : Nat) (ts : Word) (h : Held) (chunk : List Byte) :
    (h.append c cap ts chunk).aus.length ≤ h.aus.length + 1 := by
  unfold Held.append
  split <;> simp

theorem Held.mark_aus_length_le (c : DecCfg) (m : Bool) (h : Held) : (h.mark c m).aus.length ≤ h.aus.length + 1 := by
  unfold Held.mark
  split <;> simp

theorem Held.foldl_append_aus_length_le (c : DecCfg) (cap : Nat) (ts : Word) (chunks : List (List Byte)) (h : Held) :
    (chunks.foldl (Held.append c cap ts) h).aus.length ≤ h.aus.length + chunks.length := by
  induction chunks generalizing h with
  | nil => simp
  | cons chunk chunks ih =>
    have hfirst := Held.append_aus_length_le c cap ts h chunk
    have hrest := ih (h.append c cap ts chunk)
    rw [List.foldl_cons, List.length_cons]
    omega

/-! ### A state that shows it -/

/-- `t` shows that the accumulator of `s` has become `h`, the access units and overflows of `h` being those since `s`;
whatever the decoder's operations on the accumulator do not change is as in `s`. -/
structure Tracks (s : State) (h : Held) (t : State) : Prop where
  ok : t.dec.Ok
  held : t.dec.held = h.payload
  ts : t.dec.ts = h.ts
  log : t.log = s.log ++ h.aus.map Event.au
  header : t.dec.acc.take 7 = if h.aus = [] then s.dec.acc.take 7 else headerBytes s.dec.cfg 7
  auCnt : t.dec.auCnt = s.dec.auCnt + BitVec.ofNat 32 h.aus.length
  ovfCnt : t.dec.ovfCnt = s.dec.ovfCnt + BitVec.ofNat 32 h.overflows
  multiCnt : t.dec.multiCnt = s.dec.multiCnt
  dropCnt : t.dec.dropCnt = s.dec.dropCnt
  cfg : t.dec.cfg = s.dec.cfg
  cap : t.dec.cap = s.dec.cap

variable {s t u : State}

theorem Tracks.start (hs : s.dec.Ok) : Tracks s (.start s.dec) s :=
  ⟨hs, rfl, rfl, by simp [Held.start], by simp [Held.start], by simp [Held.start], by simp [Held.start], rfl, rfl, rfl,
    rfl⟩

theorem Tracks.fill (ht : Tracks s h t) : t.dec.fill = 7 + h.payload.length := by
  have hmin := ht.ok.fillMin
  rw [← ht.held, held_length ht.ok]
  omega

/-- What is outside the decoder and the log does not matter. -/
theorem Tracks.congr (ht : Tracks s h t) (hdec : u.dec = t.dec) (hlog : u.log = t.log) : Tracks s h u := by
  constructor <;> simp only [hdec, hlog]
  exacts [ht.ok, ht.held, ht.ts, ht.log, ht.header, ht.auCnt, ht.ovfCnt, ht.multiCnt, ht.dropCnt, ht.cfg, ht.cap]

/-- FINALIZE of a payload that is not empty (41_decoder R138). -/
theorem Tracks.finalize_of_held (ht : Tracks s h t) (he : h.payload ≠ []) :
    Tracks s (h.flush s.dec.cfg) (finalize t) := by
  have hfill : t.dec.fill ≠ 7 := by
    rw [← ht.held] at he
    exact mt (held_eq_nil_iff ht.ok).2 he
  have hok := finalize_ok ht.ok
  rw [Machine.finalize_of_held ht.ok hfill] at hok ⊢
  refine ⟨hok, held_of_empty rfl, rfl, ?_, ?_, ?_, ht.ovfCnt, ht.multiCnt, ht.dropCnt, ht.cfg, ht.cap⟩
  · simp [ht.log, ht.cfg, ht.held, ht.ts, ht.fill, Held.flush, Held.au]
  · simp [ht.cfg, Held.flush, List.take_left' (headerBytes_length ..)]
  · simp [ht.auCnt, Held.flush, BitVec.ofNat_add, BitVec.add_assoc]

/-- Step 5: the marker's flush (41_decoder R134, R144). -/
theorem Tracks.mark (ht : Tracks s h t) (m : Bool) :
    Tracks s (h.mark s.dec.cfg m) (if m then finalize t else t) := by
  cases m with
  | false => simpa [Held.mark_of_unmarked] using ht
  | true =>
    by_cases he : h.payload = []
    · have hfill : t.dec.fill = 7 := by simp [ht.fill, he]
      simpa [Held.mark_of_empty he, finalize_of_empty hfill] using ht
    · simpa [Held.mark_of_held rfl he] using ht.finalize_of_held he

theorem Tracks.countOverflow (ht : Tracks s h t) :
    Tracks s h.countOverflow { t with dec := { t.dec with ovfCnt := countUp t.dec.ovfCnt } } := by
  obtain ⟨hmin, hfill, hmax, hlen, hzero⟩ := ht.ok
  refine ⟨⟨hmin, hfill, hmax, hlen, hzero⟩, ht.held, ht.ts, ht.log, ht.header, ht.auCnt, ?_, ht.multiCnt, ht.dropCnt,
    ht.cfg, ht.cap⟩
  simp [ht.ovfCnt, countUp, Held.countOverflow, BitVec.ofNat_add, BitVec.add_assoc]

/-- The flush of step 3 (41_decoder R137). -/
theorem Tracks.overflowFlush (ht : Tracks s h t) (he : h.payload ≠ []) :
    Tracks s (h.countOverflow.flush s.dec.cfg) (overflowFlush t) :=
  ht.countOverflow.finalize_of_held he

/-- The copy of step 4 (41_decoder R137). -/
theorem Tracks.copyChunk (ht : Tracks s h t) (hfits : 7 + h.payload.length + chunk.length ≤ s.dec.cap) (ts : Word) :
    Tracks s (h.copy chunk ts) (copyChunk t chunk ts) := by
  have hroom : t.dec.fill + chunk.length ≤ t.dec.cap := by rw [ht.fill, ht.cap]; exact hfits
  have hmin := ht.ok.fillMin
  have hmax := ht.ok.fillMax
  have hlen := ht.ok.accLen
  refine ⟨copyChunk_ok ht.ok hroom ts, ?_, rfl, ht.log, ?_, ht.auCnt, ht.ovfCnt, ht.multiCnt, ht.dropCnt, ht.cfg, ht.cap⟩
  · rw [copyChunk_held ht.ok hroom, ht.held]
    rfl
  · rw [copyChunk_dec, accWrite, List.append_assoc, List.take_append_of_le_length (by simp; omega), List.take_take,
      Nat.min_eq_left hmin]
    exact ht.header

/-- APPEND_CHUNK (41_decoder R137): a chunk that fits a fresh accumulator overflows only when something is held. -/
theorem Tracks.appendChunk (ht : Tracks s h t) (hchunk : chunk.length ≤ s.dec.cap - 7) (ts : Word) :
    Tracks s (h.append s.dec.cfg s.dec.cap ts chunk) (appendChunk t chunk ts) := by
  have hcapMin := ht.ok.capMin
  rw [ht.cap] at hcapMin
  obtain hfits | hover := le_or_gt (7 + h.payload.length + chunk.length) s.dec.cap
  · rw [Held.append_of_fits hfits, appendChunk_of_fits (by rw [ht.fill, ht.cap]; exact hfits)]
    exact ht.copyChunk hfits ts
  · have he : h.payload ≠ [] := by
      rw [← List.length_pos_iff]
      omega
    rw [Held.append_of_overflow hover, appendChunk_of_overflow (by rw [ht.fill, ht.cap]; exact hover)]
    refine (ht.overflowFlush he).copyChunk ?_ ts
    change 7 + 0 + chunk.length ≤ s.dec.cap
    omega

/-- The chunks of a packet, in order (41_decoder R140). -/
theorem Tracks.appendChunks (ht : Tracks s h t) {chunks : List (List Byte)}
    (hchunks : ∀ chunk ∈ chunks, chunk.length ≤ s.dec.cap - 7) (ts : Word) :
    Tracks s (chunks.foldl (Held.append s.dec.cfg s.dec.cap ts) h)
      (chunks.foldl (fun t chunk => Machine.appendChunk t chunk ts) t) := by
  induction chunks generalizing h t with
  | nil => exact ht
  | cons chunk chunks ih =>
    obtain ⟨hfirst, hrest⟩ := List.forall_mem_cons.1 hchunks
    exact ih (ht.appendChunk hfirst ts) hrest

/-! ### LOCK_DEC, and DEC_PKT from there on -/

theorem Tracks.lockDec (ht : Tracks s h t) : Tracks s h (lockDec t) := by
  constructor <;> simp only [lockDec_dec, lockDec_log, lockedDec_held, lockedDec_ts, lockedDec_acc, lockedDec_auCnt,
    lockedDec_ovfCnt, lockedDec_multiCnt, lockedDec_dropCnt, lockedDec_cfg, lockedDec_cap]
  exacts [lockedDec_ok ht.ok, ht.held, ht.ts, ht.log, ht.header, ht.auCnt, ht.ovfCnt, ht.multiCnt, ht.dropCnt, ht.cfg,
    ht.cap]

/-- DEC_PKT of a well-formed fragment: the chunks appended in order, then the marker's flush (41_decoder R134, R140). -/
theorem Tracks.decodeAccepted {base size offset : Word} (hw : FragmentWellFormed t base size offset)
    (ht : Tracks s h (noteMultiAu (countAt t (base.toNat + offset.toNat)) (Machine.lockDec t))) (m : Bool) (ts : Word) :
    Tracks s
      (((chunksOf (s.dec.cap - 7) (fragmentData t base size offset)).foldl (Held.append s.dec.cfg s.dec.cap ts) h).mark
        s.dec.cfg m)
      (decodeAccepted m base.toNat size.toNat offset.toNat ts t) := by
  have hcap : t.dec.cap = s.dec.cap := by simpa using ht.cap
  have hmin : 8 ≤ t.dec.cap := by simpa using ht.ok.capMin
  have hchunks := (chunksOf_spec (w := s.dec.cap - 7) (by omega) (fragmentData t base size offset)).1
  rw [decodeAccepted_wellFormed hmin hw, hcap]
  exact (ht.appendChunks hchunks ts).mark m

/-- What has become of the accumulator after an accepted DEC_PKT, read off the state it leaves. The state it is compared
with is the one after the lock and the count of several AU-headers. -/
theorem tracks_packetHeld (hs : s.dec.Ok) {base size offset : Word} (hw : FragmentWellFormed s base size offset)
    (m : Bool) (ts : Word) :
    Tracks (noteMultiAu (countAt s (base.toNat + offset.toNat)) (lockDec s)) (packetHeld s m base size offset ts)
      (decodeAccepted m base.toNat size.toNat offset.toNat ts s) := by
  have hok : (noteMultiAu (countAt s (base.toNat + offset.toNat)) (lockDec s)).dec.Ok :=
    noteMultiAu_ok (by simpa using lockedDec_ok hs) _
  have hpacket := (Tracks.start hok).decodeAccepted hw m ts
  simpa [Held.start, Dec.held, packetHeld] using hpacket

theorem packetHeld_bytes (hs : s.dec.Ok) (m : Bool) (base size offset ts : Word) :
    (packetHeld s m base size offset ts).bytes = s.dec.held ++ fragmentData s base size offset := by
  have hmin := hs.capMin
  rw [packetHeld, Held.mark_bytes, Held.foldl_append_bytes, (chunksOf_spec (by omega) _).2]
  rfl

theorem packetHeld_aus_length_le (s : State) (m : Bool) (base size offset ts : Word) :
    (packetHeld s m base size offset ts).aus.length ≤
      (chunksOf (s.dec.cap - 7) (fragmentData s base size offset)).length + 1 := by
  refine (Held.mark_aus_length_le ..).trans (Nat.succ_le_succ ?_)
  simpa [Held.start] using Held.foldl_append_aus_length_le s.dec.cfg s.dec.cap ts
    (chunksOf (s.dec.cap - 7) (fragmentData s base size offset)) (Held.start s.dec)

end Sys2Proof.Claim

namespace Sys2Proof.Machine

open Sys2Proof.Claim

variable {s t : State}

/-- The new events of an accepted DEC_PKT are the access units of `packetHeld`. -/
theorem newEvents_decodeAccepted (hs : s.dec.Ok) {base size offset : Word} (hw : FragmentWellFormed s base size offset)
    (m : Bool) (ts : Word) :
    newEvents s (decodeAccepted m base.toNat size.toNat offset.toNat ts s) =
      (packetHeld s m base size offset ts).aus.map Event.au :=
  newEvents_of_log (by simpa using (tracks_packetHeld hs hw m ts).log)

/-- A DEC_PKT that raises an error or whose fragment is malformed emits nothing; any other emits the access units of
`packetHeld` (41_decoder R132, R135). -/
theorem newEvents_decPkt (hs : s.dec.Ok) {rsv : BitVec 23} {m : Bool} {base size offset ts : Word}
    (h : exec (.decPkt rsv m base size offset ts) s = .next t) :
    newEvents s t = [] ∨ newEvents s t = (packetHeld s m base size offset ts).aus.map Event.au := by
  obtain ⟨e, rfl⟩ | ⟨-, hrange, rfl⟩ := exec_inv h
  · exact .inl (newEvents_of_log (by simp [Instr.op]))
  rw [newEvents_advance]
  obtain hw | hbad := fragment_cases s hrange offset
  · exact .inr (newEvents_decodeAccepted hs hw m ts)
  · rw [decodeAccepted_malformed hbad]
    exact .inl (newEvents_of_log (by simp))

/-- The effect of a DEC_FLUSH without a reserved bit happens. -/
theorem exec_decFlush (s : State) : exec (.decFlush 0) s = .next (advance (finalize (lockDec s)) 1) := rfl

end Sys2Proof.Machine

namespace Sys2Proof.Proofs

open Sys2Proof.Machine Sys2Proof.Claim

/-- Settles O23: `Tracks.appendChunk` from what is held now, in each branch of the overflow test. -/
theorem appendChunkResult : Obligations.AppendChunkResult := by
  intro s bs t hinv hbs
  have hstart := Tracks.start hinv.decOk
  have happend := hstart.appendChunk hbs t
  have hfill := hstart.fill
  refine ⟨fun hfits => ?_, fun hover => ?_⟩
  · rw [Held.append_of_fits (by omega)] at happend
    refine ⟨happend.held, ?_, happend.ts, ?_, ?_, ?_⟩
    · simp [happend.fill, hfill, Held.copy, Nat.add_assoc]
    · simpa [Held.copy, Held.start] using happend.log
    · simpa [Held.copy, Held.start] using happend.ovfCnt
    · simpa [Held.copy, Held.start] using happend.auCnt
  · rw [Held.append_of_overflow (by omega)] at happend
    refine ⟨happend.held, happend.fill, happend.ts, ?_, happend.ovfCnt, happend.auCnt⟩
    rw [happend.log, hfill]
    rfl

/-- Settles O18: the accumulator by `tracks_packetHeld`, the lock by the frame of DEC_PKT's parts. -/
theorem decPktAppendsChunkByChunk : Obligations.DecPktAppendsChunkByChunk := by
  intro s m base size offset ts hinv hw
  have htracks := tracks_packetHeld hinv.decOk hw m ts
  obtain ⟨-, hlocked, hwarn, -⟩ := Dec.setup_eq_iff.1 (decodeAccepted_setup m base.toNat size.toNat offset.toNat ts s)
  obtain ⟨hcp, hstream, himem⟩ := decodeAccepted_surroundings m base.toNat size.toNat offset.toNat ts s
  have hcap : (decodeAccepted m base.toNat size.toNat offset.toNat ts s).dec.cap = s.dec.cap := by
    simpa using htracks.cap
  refine ⟨_, exec_decPkt hw.range, htracks.held, htracks.fill, htracks.ts, ?_, ?_, ?_, ?_, ?_, ?_, ?_, ?_, ?_, hcap,
    htracks.ok.accLen.trans hcap, ?_, ?_, ?_, hstream, himem⟩
  · simpa using htracks.log
  · simpa using htracks.header
  · simpa using htracks.auCnt
  · simpa using htracks.ovfCnt
  · simpa using htracks.multiCnt
  · simpa using htracks.dropCnt
  · simpa using hlocked
  · simpa using hwarn
  · simpa using htracks.cfg
  · simp [hcp]
  · simp
  · simp [decodeAccepted_err]

/-- Settles O20: no append and no flush of `packetHeld` loses a byte, and the chunks side by side are the data. -/
theorem decPktConservesBytes : Obligations.DecPktConservesBytes := by
  intro s m base size offset ts hinv hw
  refine ⟨_, exec_decPkt hw.range, ?_⟩
  rw [newEvents_advance, newEvents_decodeAccepted hinv.decOk hw, ← packetHeld_bytes hinv.decOk m base size offset ts,
    advance_dec, (tracks_packetHeld hinv.decOk hw m ts).held]
  simp [Held.bytes, List.filterMap_map, Function.comp_def, Event.au?]

/-- Settles O21: one access unit a chunk at most and one for the marker; data that fits one chunk is one chunk. -/
theorem decPktEmissionBound : Obligations.DecPktEmissionBound := by
  intro s t rsv m base size offset ts hinv h
  have hmin := hinv.decOk.capMin
  have hbound : (newEvents s t).length ≤ (chunksOf (s.dec.cap - 7) (fragmentData s base size offset)).length + 1 := by
    obtain hnone | haus := newEvents_decPkt hinv.decOk h
    · simp [hnone]
    · simpa [haus] using packetHeld_aus_length_le s m base size offset ts
  refine ⟨hbound, fun hshort => ?_⟩
  rwa [chunksOf_short (by omega) hshort] at hbound

/-- Settles O19: what is dropped is counted after LOCK_DEC, and nothing else is done. -/
theorem decPktDropsMalformed : Obligations.DecPktDropsMalformed := by
  intro s m base size offset ts hrange hbad
  rw [exec_decPkt hrange, decodeAccepted_malformed hbad, lockDec_eq]
  simp [dropFragment, advance, countUp]

/-- Settles O22: FINALIZE after LOCK_DEC, when something is held and when nothing is; the reserved bits by O8. -/
theorem decFlushResult : Obligations.DecFlushResult := by
  intro s rsv hinv
  refine ⟨fun hempty => ?_, fun hheld => ?_, fun hrsv => ?_⟩
  · rw [exec_decFlush, finalize_of_empty (by simpa using hempty), lockDec_eq]
    rfl
  · rw [exec_decFlush, finalize_of_held (by simpa using lockedDec_ok hinv.decOk) (by simp; omega), lockDec_eq]
    simp [advance]
  · have herror : expectedError (.decFlush rsv) s = some 0x02#8 := by
      simpa [expectedError, Instr.wellFormed] using hrsv
    simpa [opByte, lengthOf] using errorsArePreciseAndPrioritised.1 _ _ _ herror

end Sys2Proof.Proofs
end

section
/-! The round trip of 41_decoder section 5 (R147): the fragments of an access unit side by side, one delivery as one
append of `Held`, and a run of deliveries as a fold of them. -/

namespace Sys2Proof.Machine

variable {s : State}

/-! ### The fragments of an access unit -/

theorem memRead_four (s : State) (a : Nat) : memRead s a 4 =
    [s.imem.byteAt a, s.imem.byteAt (a + 1), s.imem.byteAt (a + 2), s.imem.byteAt (a + 3)] := rfl

/-- The slices of 40_encoder R113, side by side, are the bytes they are cut from, as far as the slices reach. -/
theorem slices_flatten (s : State) (src cap l n : Nat) :
    ((List.range n).map fun i => memRead s (src + i * cap) (min ((i + 1) * cap) l - i * cap)).flatten =
      memRead s src (min (n * cap) l) := by
  induction n with
  | zero => simp
  | succ n ih =>
    have hnext : (n + 1) * cap = n * cap + cap := Nat.succ_mul n cap
    rw [List.range_succ, List.map_append, List.flatten_append, ih, List.map_singleton, List.flatten_singleton]
    obtain hpast | hinside := le_or_gt l (n * cap)
    · rw [Nat.min_eq_right hpast, Nat.min_eq_right (by omega), Nat.sub_eq_zero_of_le hpast, memRead_zero, List.append_nil]
    · rw [Nat.min_eq_left hinside.le, ← memRead_add]
      congr 1
      omega

/-- The slices reach the end (40_encoder R117). -/
theorem le_ceilDiv_mul {l cap : Nat} (hcap : 1 ≤ cap) : l ≤ (l + cap - 1) / cap * cap := by
  have h := Nat.lt_div_mul_add (a := l + cap - 1) hcap
  omega

theorem sliceFrag_payload_flatten {hdr : List Byte} (hhdr : hdr.length = 4) {ts : Word} {cap src l : Nat}
    (hcap : 1 ≤ cap) :
    ((List.range ((l + cap - 1) / cap)).map fun i => (sliceFrag s hdr ts cap src l i).payload.drop 4).flatten =
      memRead s src l := by
  have hslices := slices_flatten s src cap l ((l + cap - 1) / cap)
  rw [Nat.min_eq_right (le_ceilDiv_mul hcap)] at hslices
  simpa [sliceFrag, List.drop_left' hhdr] using hslices

/-- The fragments an accepted ENC_AU emits (40_encoder R113). -/
theorem frags_encAu {t : State} {base size pfx dts : Word} (hacc : EncAccepts s base size pfx)
    (h : exec (.encAu 0 base size pfx dts) s = .next t) :
    (newEvents s t).filterMap Event.frag? =
      (List.range ((size.toNat - pfx.toNat + (s.enc.mtu.toNat - 20) - 1) / (s.enc.mtu.toNat - 20))).map
        (sliceFrag s (auHdr (size.toNat - pfx.toNat)) (dts % s.enc.cycle) (s.enc.mtu.toNat - 20)
          (base.toNat + pfx.toNat) (size.toNat - pfx.toNat)) := by
  rw [exec_encAu hacc] at h
  cases h
  rw [newEvents_advance, newEvents_of_log (congrArg State.log (encodeAccepted_eq hacc.mtu))]
  simp [List.filterMap_map, Function.comp_def, Event.frag?]

end Sys2Proof.Machine

namespace Sys2Proof.Claim

open Sys2Proof.Machine

variable {s t : State} {h : Held} {x : Delivery} {ds : List Delivery}

/-! ### One delivery -/

/-- A fragment that begins with one block as ENC_AU writes it (30_encoding R90). -/
def OneHeader (f : Frag) : Prop := ∃ l, f.payload = auHdr l ++ f.payload.drop 4 ∧ f.len = f.payload.length

theorem OneHeader.four_le {f : Frag} (hone : OneHeader f) : 4 ≤ f.len := by
  obtain ⟨l, hpayload, hlen⟩ := hone
  have hsum := congrArg List.length hpayload
  rw [List.length_append, auHdr_length] at hsum
  omega

theorem sliceFrag_oneHeader (s : State) (l : Nat) (ts : Word) (cap src rem i : Nat) :
    OneHeader (sliceFrag s (auHdr l) ts cap src rem i) :=
  ⟨l, by simp [sliceFrag, List.drop_left' (auHdr_length l)], by simp [sliceFrag]⟩

/-- The access-unit data of the fragment on its way, behind its block. -/
def Delivery.data (x : Delivery) : List Byte := x.frag.payload.drop 4

/-- The bytes of a fragment with one AU-header, where a delivery puts them: the block, then the data. -/
theorem Delivery.carries.reads (hx : x.carries s) (hone : OneHeader x.frag) :
    ∃ l, memRead { s with imem := x.imem } (x.base.toNat + x.offset.toNat) 4 = auHdr l ∧
      memRead { s with imem := x.imem } (x.base.toNat + x.offset.toNat + 4) (x.frag.len - 4) = x.data := by
  have hfour := hone.four_le
  obtain ⟨-, -, -, hmem⟩ := hx
  obtain ⟨l, hpayload, -⟩ := hone
  rw [← Nat.add_sub_cancel' hfour, memRead_add, hpayload] at hmem
  exact ⟨l, List.append_inj hmem (by simp)⟩

/-- The block's AU-headers-length is 16, one AU-header (30_encoding R90, R93). -/
theorem Delivery.carries.countAt_eq_one (hx : x.carries s) (hone : OneHeader x.frag) :
    countAt { s with imem := x.imem } (x.base.toNat + x.offset.toNat) = 1 := by
  obtain ⟨l, hblock, -⟩ := hx.reads hone
  rw [memRead_four, auHdr, List.cons.injEq, List.cons.injEq] at hblock
  obtain ⟨hfirst, hsecond, -⟩ := hblock
  simp [countAt, hfirst, hsecond]

/-- The fragment is in range and well formed where the delivery puts it. -/
theorem Delivery.carries.wellFormed (hx : x.carries s) (hone : OneHeader x.frag) :
    FragmentWellFormed { s with imem := x.imem } x.base x.size x.offset := by
  have hcount := hx.countAt_eq_one hone
  have hfour := hone.four_le
  obtain ⟨hrange, hoffset, hlen, -⟩ := hx
  exact ⟨hrange, hoffset, by omega, by rw [hcount]; omega⟩

theorem Delivery.carries.fragmentData_eq (hx : x.carries s) (hone : OneHeader x.frag) :
    fragmentData { s with imem := x.imem } x.base x.size x.offset = x.data := by
  obtain ⟨l, -, hdata⟩ := hx.reads hone
  have hcount := hx.countAt_eq_one hone
  obtain ⟨-, -, hlen, -⟩ := hx
  rw [fragmentData, hcount, hlen]
  exact hdata

/-- What a delivery makes of what is held: its data appended, then its marker's flush (41_decoder R134, R137). -/
def Held.receive (c : DecCfg) (cap : Nat) (h : Held) (x : Delivery) : Held :=
  (h.append c cap x.ts x.data).mark c x.frag.marker

/-- A delivery to a decoder whose accumulator its data fits completes, and appends the data as one chunk. -/
theorem Tracks.receive (ht : Tracks s h t) (hx : x.carries s) (hone : OneHeader x.frag)
    (hfits : x.data.length ≤ s.dec.cap - 7) :
    ∃ u, exec (.decPkt 0 x.frag.marker x.base x.size x.offset x.ts) { t with imem := x.imem } = .next u ∧
      Tracks s (h.receive s.dec.cfg s.dec.cap x) u := by
  have hxt : x.carries t := hx
  have hmin := ht.ok.capMin
  rw [ht.cap] at hmin
  have hlock : Tracks s h (Machine.lockDec { t with imem := x.imem }) :=
    (ht.congr (u := { t with imem := x.imem }) rfl rfl).lockDec
  have hdecode := Tracks.decodeAccepted (hxt.wellFormed hone)
    (by rwa [hxt.countAt_eq_one hone, noteMultiAu_of_one]) x.frag.marker x.ts
  rw [hxt.fragmentData_eq hone, chunksOf_short (by omega) hfits] at hdecode
  exact ⟨_, exec_decPkt hx.1, hdecode.congr rfl rfl⟩

/-! ### A run of deliveries -/

theorem Tracks.deliver (ht : Tracks s h t) (hds : ∀ x ∈ ds, x.carries s ∧ OneHeader x.frag ∧
    x.data.length ≤ s.dec.cap - 7) :
    ∃ u, deliver ds t = .next u ∧ Tracks s (ds.foldl (Held.receive s.dec.cfg s.dec.cap) h) u := by
  induction ds generalizing h t with
  | nil => exact ⟨t, rfl, ht⟩
  | cons x ds ih =>
    obtain ⟨⟨hx, hone, hfits⟩, hrest⟩ := List.forall_mem_cons.1 hds
    obtain ⟨u, hexec, hu⟩ := ht.receive hx hone hfits
    simp only [Claim.deliver, hexec]
    exact ih hu hrest

variable {c : DecCfg} {cap : Nat}

theorem Held.receive_unmarked (hm : x.frag.marker = false) (hfits : 7 + h.payload.length + x.data.length ≤ cap) :
    h.receive c cap x = h.copy x.data x.ts := by
  rw [Held.receive, Held.append_of_fits hfits, Held.mark_of_unmarked hm]

theorem Held.receive_marked (hm : x.frag.marker = true) (hfits : 7 + h.payload.length + x.data.length ≤ cap)
    (hne : h.payload ++ x.data ≠ []) : h.receive c cap x = (h.copy x.data x.ts).flush c := by
  rw [Held.receive, Held.append_of_fits hfits, Held.mark_of_held hm hne]

/-- Deliveries without a marker that fit side by side are held side by side, and nothing is emitted. -/
theorem Held.foldl_receive_unmarked (hm : ∀ x ∈ ds, x.frag.marker = false)
    (hfits : 7 + h.payload.length + (ds.flatMap Delivery.data).length ≤ cap) :
    (ds.foldl (Held.receive c cap) h).payload = h.payload ++ ds.flatMap Delivery.data ∧
      (ds.foldl (Held.receive c cap) h).aus = h.aus := by
  induction ds generalizing h with
  | nil => simp
  | cons x ds ih =>
    obtain ⟨hx, hrest⟩ := List.forall_mem_cons.1 hm
    rw [List.flatMap_cons, List.length_append] at hfits
    obtain ⟨hpayload, haus⟩ := ih (h := h.copy x.data x.ts) hrest
      (by simp only [Held.copy, List.length_append]; omega)
    rw [List.foldl_cons, Held.receive_unmarked hx (by omega), hpayload, haus]
    simp [Held.copy]

/-- When the last of such deliveries has the marker, all their data leave as one access unit with its timestamp
(41_decoder R147). -/
theorem Held.foldl_receive_marked_last {last : Delivery} {data : List Byte} (hempty : h.payload = [])
    (hm : ∀ x ∈ ds, x.frag.marker = false) (hlast : last.frag.marker = true)
    (hdata : (ds ++ [last]).flatMap Delivery.data = data) (hne : data ≠ []) (hfits : 7 + data.length ≤ cap) :
    ((ds ++ [last]).foldl (Held.receive c cap) h).payload = [] ∧
      ((ds ++ [last]).foldl (Held.receive c cap) h).aus = h.aus ++
        [{ bytes := headerBytes c (7 + data.length) ++ data, len := 7 + data.length, ts := last.ts }] := by
  rw [List.flatMap_append, List.flatMap_singleton] at hdata
  subst hdata
  rw [List.length_append] at hfits
  obtain ⟨hpayload, haus⟩ := Held.foldl_receive_unmarked (c := c) (cap := cap) (h := h) hm
    (by rw [hempty, List.length_nil]; omega)
  rw [hempty, List.nil_append] at hpayload
  rw [List.foldl_append, List.foldl_cons, List.foldl_nil,
    Held.receive_marked hlast (by rw [hpayload]; omega) (by rwa [hpayload])]
  simp [Held.flush, Held.copy, Held.au, hpayload, haus, -List.length_flatMap]

/-! ### The deliveries of an access unit's fragments -/

section

variable {hdr : List Byte} {ts : Word} {slice src l : Nat}

/-- Deliveries of the splitter's slices carry the access unit (40_encoder R117). -/
theorem deliveries_data (hhdr : hdr.length = 4) (hslice : 1 ≤ slice)
    (hfrags : ds.map Delivery.frag =
      (List.range ((l + slice - 1) / slice)).map (sliceFrag s hdr ts slice src l)) :
    ds.flatMap Delivery.data = memRead s src l := by
  have hflat := congrArg (fun fs => (fs.map fun f => f.payload.drop 4).flatten) hfrags
  simp only [List.map_map, Function.comp_def, sliceFrag_payload_flatten hhdr hslice] at hflat
  exact hflat

/-- Of deliveries of the splitter's slices the last alone has the marker (40_encoder R114). -/
theorem deliveries_markers {last : Delivery} (hslice : 1 ≤ slice) (hl : 1 ≤ l)
    (hfrags : (ds ++ [last]).map Delivery.frag =
      (List.range ((l + slice - 1) / slice)).map (sliceFrag s hdr ts slice src l)) :
    (∀ x ∈ ds, x.frag.marker = false) ∧ last.frag.marker = true := by
  have hpos : 0 < (l + slice - 1) / slice := Nat.div_pos (by omega) hslice
  obtain ⟨k, hk⟩ := Nat.exists_eq_add_one.2 hpos
  rw [hk, List.range_succ, List.map_append, List.map_append] at hfrags
  obtain ⟨hinit, hlast⟩ := List.append_inj' hfrags rfl
  refine ⟨fun x hx => ?_, ?_⟩
  · obtain ⟨i, hi, hxi⟩ := List.mem_map.1 (hinit ▸ List.mem_map_of_mem hx)
    have hlt := List.mem_range.1 hi
    rw [← hxi]
    exact decide_eq_false (by rw [hk]; omega)
  · simp only [List.map_cons, List.map_nil, List.cons.injEq, and_true] at hlast
    rw [hlast]
    exact decide_eq_true hk.symm

end

end Sys2Proof.Claim

namespace Sys2Proof.Proofs

open Sys2Proof.Machine Sys2Proof.Claim

/-- Settles O25: the deliveries are a fold of `Held.receive`, of which all but the last append and the last flushes; the
data of the slices side by side are the access unit. -/
theorem roundTripRestoresTheAccessUnit : Obligations.RoundTripRestoresTheAccessUnit := by
  intro e e' base size pfx dts d ds last hacc hone hexec hinv hfill hroom hfrags hcarries hlast
  obtain ⟨init, rfl⟩ := List.getLast?_eq_some_iff.1 hlast
  have hmtu := hacc.mtu
  rw [frags_encAu hacc hexec] at hfrags
  obtain ⟨hunmarked, hmarked⟩ := deliveries_markers (by omega) hone hfrags
  have hdata := deliveries_data (auHdr_length _) (by omega) hfrags
  have hds : ∀ x ∈ init ++ [last], x.carries d ∧ OneHeader x.frag ∧ x.data.length ≤ d.dec.cap - 7 := by
    intro x hx
    obtain ⟨i, -, hxi⟩ := List.mem_map.1 (hfrags ▸ List.mem_map_of_mem hx)
    refine ⟨hcarries x hx, hxi ▸ sliceFrag_oneHeader .., ?_⟩
    have hle := (List.sublist_flatten_of_mem (List.mem_map_of_mem (f := Delivery.data) hx)).length_le
    rw [← List.flatMap_def, hdata, memRead_length] at hle
    omega
  obtain ⟨t, hdeliver, ht⟩ := (Tracks.start hinv.decOk).deliver hds
  obtain ⟨hpayload, haus⟩ := Held.foldl_receive_marked_last (c := d.dec.cfg) (h := .start d.dec) (cap := d.dec.cap)
    (held_of_empty hfill) hunmarked hmarked hdata (by rw [← List.length_pos_iff, memRead_length]; omega)
    (by rw [memRead_length]; omega)
  refine ⟨t, hdeliver, by rw [ht.fill, hpayload]; rfl, ?_⟩
  rw [ht.log, haus, memRead_length, Nat.add_comm 7]
  rfl

end Sys2Proof.Proofs
end

section
/-! The control commands in full (42_control R160 to R164): what RESET leaves of each unit, what a register reads after a
WRREG, and the values RDREG answers with as numbers. -/

namespace Sys2Proof.Machine

variable {s t : State} {r : Reg}

/-! ### RESET -/

theorem exec_reset (enc dec : Bool) (s : State) :
    exec (.reset 0 enc dec) s = .next (advance (resetUnits enc dec s) 1) := rfl

/-- Each unit takes its reset value or stays, whatever becomes of the other (42_control R160). -/
theorem resetUnits_eq (enc dec : Bool) (s : State) : resetUnits enc dec s =
    { s with enc := if enc then Enc.reset else s.enc, dec := if dec then (decReset s).dec else s.dec } := by
  cases enc <;> cases dec <;> rfl

/-- DEC_RESET clears VALID before its OBTAIN, so the header region is zero (70_reset_and_hazards R211). -/
theorem decReset_dec (s : State) : (decReset s).dec =
    { Dec.powerOn s.dec.cap with acc := List.replicate 7 0x00#8 ++ s.dec.acc.drop 7 } := by
  rw [decReset, obtainAcc_eq]
  rfl

/-! ### WRREG -/

/-- The registers of access type RW-C (10_state R33, R42). -/
def Reg.configuration : List Reg := [.encMtu, .encCycle, .encSsrc, .encParam, .encSrate, .decCfg]

theorem Reg.access_of_mem_configuration (h : r ∈ Reg.configuration) : ∃ u, r.access = .rwc u := by
  cases r with
  | encMtu | encCycle | encSsrc | encParam | encSrate | decCfg => exact ⟨_, rfl⟩
  | _ => exact absurd h (by decide)

/-- DEC_CFG stands under the decoder's lock, the other configuration registers under the encoder's (10_state R33). -/
theorem unitLocked_of_access {u : CoreUnit} (hacc : r.access = .rwc u) :
    s.unitLocked u = if r = .decCfg then s.dec.locked else s.enc.locked := by
  cases u with
  | dec =>
    obtain rfl := Reg.access_rwc_dec hacc
    rfl
  | enc =>
    rw [if_neg (by rintro rfl; cases hacc)]
    rfl

theorem exec_wrreg_configuration {u : CoreUnit} (hacc : r.access = .rwc u) (hopen : s.unitLocked u = false)
    (data : Word) : exec (.wrreg 0 r.addr data) s = .next (advance (regWrite s r (data &&& r.wmask)) 2) := by
  simp [exec, execWrreg, Reg.ofAddr_addr, hacc, hopen]

theorem exec_wrreg_of_regWrite {u : CoreUnit} (hacc : r.access = .rwc u) (hopen : s.unitLocked u = false)
    {data : Word} (hstored : regWrite s r (data &&& r.wmask) = t) :
    exec (.wrreg 0 r.addr data) s = .next (advance t 2) := by
  rw [exec_wrreg_configuration hacc hopen, hstored]

theorem exec_wrreg_err (data : Word) (s : State) :
    exec (.wrreg 0 Reg.err.addr data) s = .next (advance { s with err := Err.clear } 2) := rfl

/-- A field that the write mask leaves whole is stored as it stands in DATA (42_control R161, R163). -/
theorem field_of_masked {m : Word} {lo n : Nat} (hm : m.extractLsb' lo n = BitVec.allOnes n) (v : Word) :
    (v &&& m).extractLsb' lo n = BitVec.ofNat n (v.toNat / 2 ^ lo) := by
  rw [BitVec.extractLsb'_and, hm, BitVec.and_allOnes]
  exact BitVec.eq_of_toNat_eq (by rw [toNat_field, BitVec.toNat_ofNat])

theorem regWrite_encMtu_masked (s : State) (v : Word) : regWrite s .encMtu (v &&& Reg.encMtu.wmask) =
    { s with enc := { s.enc with mtu := BitVec.ofNat 16 v.toNat } } := by
  rw [regWrite, field_of_masked (by decide), pow_zero, Nat.div_one]

theorem regWrite_encParam_masked (s : State) (v : Word) : regWrite s .encParam (v &&& Reg.encParam.wmask) =
    { s with enc := { s.enc with
        pt := BitVec.ofNat 8 v.toNat, interleaved := BitVec.ofNat 8 (v.toNat / 2 ^ 8) } } := by
  rw [regWrite, field_of_masked (by decide), field_of_masked (by decide), pow_zero, Nat.div_one]

theorem regWrite_decCfg_masked (s : State) (v : Word) : regWrite s .decCfg (v &&& Reg.decCfg.wmask) =
    { s with dec := { s.dec with cfg :=
        { valid := v.getLsbD 0
          profile := BitVec.ofNat 2 (v.toNat / 2)
          sfIndex := BitVec.ofNat 4 (v.toNat / 2 ^ 3)
          channels := BitVec.ofNat 3 (v.toNat / 2 ^ 7) } } } := by
  have hvalid : (v &&& Reg.decCfg.wmask).getLsbD 0 = v.getLsbD 0 := by
    rw [BitVec.getLsbD_and]
    exact Bool.and_true _
  rw [regWrite, DecCfg.ofWord, hvalid, field_of_masked (by decide), field_of_masked (by decide),
    field_of_masked (by decide), pow_one]

/-- ENC_CYCLE, ENC_SSRC and ENC_SRATE have no reserved bits (10_state R23, R24, R26). -/
theorem regWrite_masked_of_full (hfull : r.wmask = BitVec.allOnes 32) (s : State) (v : Word) :
    regWrite s r (v &&& r.wmask) = regWrite s r v := by
  rw [hfull, BitVec.and_allOnes]

/-! ### Register reads as numbers -/

/-- R164's value of each register, FILL and C in the 14 bits of their registers (log entry 10). -/
def readValue (s : State) : Reg → Nat
  | .encMtu => s.enc.mtu.toNat
  | .encCycle => s.enc.cycle.toNat
  | .encSsrc => s.enc.ssrc.toNat
  | .encParam => s.enc.pt.toNat + s.enc.interleaved.toNat * 2 ^ 8
  | .encSrate => s.enc.srate.toNat
  | .encStat => s.enc.locked.toNat
  | .encAuCnt => s.enc.auCnt.toNat
  | .encFragCnt => s.enc.fragCnt.toNat
  | .decCfg => s.dec.cfg.valid.toNat + s.dec.cfg.profile.toNat * 2 + s.dec.cfg.sfIndex.toNat * 2 ^ 3 +
      s.dec.cfg.channels.toNat * 2 ^ 7
  | .decStat => s.dec.locked.toNat + s.dec.warnNoCfg.toNat * 2 + (if 7 < s.dec.fill then 4 else 0)
  | .decFill => s.dec.fill % 2 ^ 14
  | .decTs => s.dec.ts.toNat
  | .decCap => s.dec.cap % 2 ^ 14
  | .decAuCnt => s.dec.auCnt.toNat
  | .decOvfCnt => s.dec.ovfCnt.toNat
  | .decDropCnt => s.dec.dropCnt.toNat
  | .decMultiCnt => s.dec.multiCnt.toNat
  | .err => s.err.code.toNat + s.err.op.toNat * 2 ^ 8

/-- Reserved bits above a value leave it (30_encoding R98). -/
theorem toNat_zero_cat (n : Nat) {m : Nat} (x : BitVec m) : (0#n ++ x).toNat = x.toNat := by
  rw [toNat_cat, BitVec.toNat_ofNat, Nat.zero_mod, Nat.zero_mul, Nat.zero_add]

/-- ENC_PARAM and ERR: a byte in bits 15 to 8 and one in bits 7 to 0 (10_state R25, R41). -/
theorem toNat_two_bytes (hi lo : Byte) : (0#16 ++ hi ++ lo).toNat = lo.toNat + hi.toNat * 2 ^ 8 := by
  rw [toNat_cat, toNat_zero_cat, Nat.add_comm]

theorem DecCfg.word_toNat (c : DecCfg) :
    c.word.toNat = c.valid.toNat + c.profile.toNat * 2 + c.sfIndex.toNat * 2 ^ 3 + c.channels.toNat * 2 ^ 7 := by
  have h : c.word.toNat = (0#22 ++ c.channels ++ c.sfIndex ++ c.profile ++ BitVec.ofBool c.valid).toNat := rfl
  simp only [h, toNat_cat, BitVec.toNat_ofBool, BitVec.toNat_ofNat]
  omega

/-- ACCUMULATING as a number (10_state R31). -/
theorem Dec.accumulating_toNat (d : Dec) : d.accumulating.toNat * 4 = if 7 < d.fill then 4 else 0 := by
  by_cases hfill : 7 < d.fill <;> simp [Dec.accumulating, hfill]

theorem decStatWord_toNat (d : Dec) :
    (decStatWord d).toNat = d.locked.toNat + d.warnNoCfg.toNat * 2 + (if 7 < d.fill then 4 else 0) := by
  have h : (decStatWord d).toNat =
      (0#29 ++ BitVec.ofBool d.accumulating ++ BitVec.ofBool d.warnNoCfg ++ BitVec.ofBool d.locked).toNat := rfl
  rw [← Dec.accumulating_toNat]
  simp only [h, toNat_cat, BitVec.toNat_ofBool, BitVec.toNat_ofNat]
  omega

theorem regRead_toNat (s : State) (r : Reg) : (regRead s r).toNat = readValue s r := by
  cases r with
  | encMtu => exact toNat_zero_cat 16 s.enc.mtu
  | encParam => exact toNat_two_bytes s.enc.interleaved s.enc.pt
  | encStat => exact (toNat_zero_cat 31 _).trans (BitVec.toNat_ofBool _)
  | decCfg => exact s.dec.cfg.word_toNat
  | decStat => exact decStatWord_toNat s.dec
  | decFill => exact (toNat_zero_cat 18 _).trans (BitVec.toNat_ofNat ..)
  | decCap => exact (toNat_zero_cat 18 _).trans (BitVec.toNat_ofNat ..)
  | err => exact toNat_two_bytes s.err.op s.err.code
  | _ => rfl

/-! ### Register reads after a register write -/

/-- A mask of the `n` lowest bits keeps the value modulo 2^n. -/
theorem toNat_and_mask {m : Word} {n : Nat} (hm : m.toNat = 2 ^ n - 1) (v : Word) :
    (v &&& m).toNat = v.toNat % 2 ^ n := by
  rw [BitVec.toNat_and, hm, Nat.and_two_pow_sub_one_eq_mod]

/-- A configuration register reads what WRREG stored, its reserved bits 0 (42_control R163, R164). -/
theorem regRead_regWrite_same {u : CoreUnit} (hacc : r.access = .rwc u) (s : State) (v : Word) :
    regRead (regWrite s r v) r = v &&& r.wmask := by
  refine BitVec.eq_of_toNat_eq ?_
  rw [regRead_toNat]
  cases r with
  | encMtu =>
    rw [toNat_and_mask (n := 16) rfl]
    simp only [readValue, regWrite, toNat_field, pow_zero, Nat.div_one]
  | encParam =>
    rw [toNat_and_mask (n := 16) rfl]
    simp only [readValue, regWrite, toNat_field]
    omega
  | decCfg =>
    rw [toNat_and_mask (n := 10) rfl]
    have hvalid : (v.getLsbD 0).toNat = v.toNat / 2 ^ 0 % 2 := Nat.toNat_testBit ..
    simp only [readValue, regWrite, DecCfg.ofWord, toNat_field, hvalid]
    omega
  | encCycle | encSsrc | encSrate => exact congrArg BitVec.toNat BitVec.and_allOnes.symm
  | _ => cases hacc

/-- A register write is read in no other register (42_control R161). -/
theorem regRead_regWrite_of_ne {r' : Reg} (h : r' ≠ r) (s : State) (v : Word) :
    regRead (regWrite s r v) r' = regRead s r' := by
  cases r with
  | encMtu => cases r' with | encMtu => exact absurd rfl h | _ => rfl
  | encCycle => cases r' with | encCycle => exact absurd rfl h | _ => rfl
  | encSsrc => cases r' with | encSsrc => exact absurd rfl h | _ => rfl
  | encParam => cases r' with | encParam => exact absurd rfl h | _ => rfl
  | encSrate => cases r' with | encSrate => exact absurd rfl h | _ => rfl
  | decCfg => cases r' with | decCfg => exact absurd rfl h | _ => rfl
  | _ => rfl

theorem regRead_advance (s : State) (k : Nat) (r : Reg) : regRead (advance s k) r = regRead s r := by
  cases r <;> rfl

/-! ### RDREG -/

theorem exec_rdreg (r : Reg) (s : State) :
    exec (.rdreg 0 r.addr) s = .next (advance (emitResp s (regRead s r)) 1) := by
  simp [exec, execRdreg, Reg.ofAddr_addr]

end Sys2Proof.Machine

namespace Sys2Proof.Proofs

open Sys2Proof.Machine Sys2Proof.Claim

/-- Settles O11: a register written and read back, and every other register's read beside it. -/
theorem registerReadsMaskedWrite : Obligations.RegisterReadsMaskedWrite := by
  intro s r mask data hmask hopen
  change (r, mask) ∈ Reg.configuration.map (fun r => (r, r.wmask)) at hmask
  obtain ⟨r, hconf, hpair⟩ := List.mem_map.1 hmask
  obtain ⟨rfl, rfl⟩ := Prod.mk.inj hpair
  obtain ⟨u, hacc⟩ := Reg.access_of_mem_configuration hconf
  rw [← unitLocked_of_access hacc] at hopen
  refine ⟨_, exec_wrreg_configuration hacc hopen data, ?_, fun r' hne => ?_⟩
  · rw [regRead_advance, regRead_regWrite_same hacc, BitVec.and_assoc, BitVec.and_self]
  · rw [regRead_advance, regRead_regWrite_of_ne hne]

/-- Settles O9: the units' reset values, and O8's error entry for a reserved bit. -/
theorem resetCommandResult : Obligations.ResetCommandResult := by
  refine fun rsv enc dec s => ⟨?_, fun hrsv => ?_⟩
  · rw [exec_reset, resetUnits_eq, decReset_dec]
    rfl
  · exact errorsArePreciseAndPrioritised.1 (.reset rsv enc dec) s 0x02#8 (if_pos (beq_eq_false_iff_ne.2 hrsv))

/-- Settles O10: the write mask keeps each field of the register whole. -/
theorem wrregStoresConfiguration : Obligations.WrregStoresConfiguration := by
  refine fun s data => ⟨fun hopen => ?_, fun hopen => ?_, exec_wrreg_err data s⟩
  · exact ⟨exec_wrreg_of_regWrite (r := .encMtu) rfl hopen (regWrite_encMtu_masked s data),
      exec_wrreg_of_regWrite (r := .encCycle) rfl hopen (regWrite_masked_of_full rfl s data),
      exec_wrreg_of_regWrite (r := .encSsrc) rfl hopen (regWrite_masked_of_full rfl s data),
      exec_wrreg_of_regWrite (r := .encParam) rfl hopen (regWrite_encParam_masked s data),
      exec_wrreg_of_regWrite (r := .encSrate) rfl hopen (regWrite_masked_of_full rfl s data)⟩
  · exact exec_wrreg_of_regWrite (r := .decCfg) rfl hopen (regWrite_decCfg_masked s data)

/-- Settles O13: the statement's table is the register map with `readValue`. -/
theorem rdregAnswersOnce : Obligations.RdregAnswersOnce := by
  refine fun s rsv addr => ⟨fun a v hmem => ?_, fun hrsv => ?_, fun hunmapped => ?_⟩
  · change (a.toNat, v) ∈ Reg.all.map (fun r => (r.addr.toNat, readValue s r)) at hmem
    obtain ⟨r, -, hpair⟩ := List.mem_map.1 hmem
    obtain ⟨haddr, rfl⟩ := Prod.mk.inj hpair
    obtain rfl := BitVec.eq_of_toNat_eq haddr
    rw [exec_rdreg, ← regRead_toNat, BitVec.ofNat_toNat, BitVec.setWidth_eq]
    rfl
  · exact errorsArePreciseAndPrioritised.1 (.rdreg rsv addr) s 0x02#8 (if_pos (beq_eq_false_iff_ne.2 hrsv))
  · exact errorsArePreciseAndPrioritised.1 (.rdreg 0 addr) s 0x03#8
      (by simp [expectedError, Instr.wellFormed, hunmapped])

end Sys2Proof.Proofs
end

section
/-! The host's moves and power-on (70_reset_and_hazards R212, R216): a run of IMEM bytes and words placed at `cp` keep the
invariant, and power-on in full. -/

namespace Sys2Proof.Machine

variable {s : State}

/-! ### The host's moves -/

theorem hostStore_inv (h : s.Inv) (a : Nat) (bs : List Byte) : (hostStore a bs s).Inv := by
  induction bs generalizing a s with
  | nil => exact h
  | cons b bs ih =>
    simp only [hostStore]
    split
    · exact ih (hostWrite_inv h _ _) _
    · exact ih h _

/-- A stream shorter than `cp` is filled up to `cp` before the words, so `cp` stays an index into it (log entry 4). -/
theorem cp_le_placeWords_stream (s : State) (ws : List Word) : s.cp ≤ (placeWords s ws).stream.length := by
  simp only [placeWords, List.length_append, List.length_take, List.length_replicate]
  omega

/-- Placing words on the port touches the stream alone. -/
theorem placeWords_inv (h : s.Inv) (ws : List Word) : (placeWords s ws).Inv := by
  obtain ⟨hdec, henc, herr, hlog, himem, -⟩ := State.inv_iff.1 h
  exact State.inv_iff.2 ⟨hdec, henc, herr, hlog, himem, cp_le_placeWords_stream s ws⟩

/-! ### Power-on -/

/-- Power-on resets both units, each as its own reset does, whatever the other holds (70_reset_and_hazards R212). -/
theorem powerOn_eq (s : State) : powerOn s =
    { s with cp := 0, enc := Enc.reset, dec := (decReset s).dec, err := Err.clear, stream := [] } := rfl

end Sys2Proof.Machine

namespace Sys2Proof.Proofs

open Sys2Proof.Machine

/-- Settles O28: each move keeps the invariant; `withFetchWord` is words placed at `cp`. -/
theorem hostMovesKeepInvariant : Obligations.HostMovesKeepInvariant :=
  fun _ a n b bs ws nbits w h =>
    ⟨hostWrite_inv h a b, hostStore_inv h n bs, hostAppend_inv h ws, powerOn_inv h, placeWords_inv h (tableWords nbits w)⟩

/-- Settles O36: the decoder's part is DEC_RESET's. -/
theorem powerOnResult : Obligations.PowerOnResult := by
  intro s
  rw [powerOn_eq, decReset_dec]
  rfl

end Sys2Proof.Proofs
end

section
/-! The encoding as a whole (30_encoding R80 to R89, R99): the decoder reads the encoder's words, drops no bit of what it
reads, and reads the spec's own words as the spec does. -/

namespace Sys2Proof

theorem toNat_getLsbD (w : Word) (k : Nat) : (w.getLsbD k).toNat = w.toNat / 2 ^ k % 2 :=
  Nat.toNat_testBit w.toNat k

/-- The fields of a format leave no bit of the command word out (30_encoding R82 to R87). -/
theorem commandWord_of_decodeOp {i : Instr} {cw : Word} {rest : List Word} (hop : opField cw = i.op.code)
    (h : decodeOp i.op cw rest = .ok i) : commandWord i = cw := by
  have hcode := congrArg BitVec.toNat hop
  rw [toNat_opField] at hcode
  refine BitVec.eq_of_toNat_eq ?_
  cases i with
  | reset rsv enc dec =>
    cases h
    simp only [reset_word, toNat_field, toNat_getLsbD, Instr.op, Op.code, BitVec.toNat_ofNat] at hcode ⊢
    omega
  | wrreg rsv addr data =>
    match rest, h with
    | _ :: _, h =>
      cases h
      simp only [wrreg_word, toNat_field, Instr.op, Op.code, BitVec.toNat_ofNat] at hcode ⊢
      omega
  | rdreg rsv addr =>
    cases h
    simp only [rdreg_word, toNat_field, Instr.op, Op.code, BitVec.toNat_ofNat] at hcode ⊢
    omega
  | encAu rsv base size pfx dts =>
    match rest, h with
    | _ :: _ :: _ :: _ :: _, h =>
      cases h
      simp only [encAu_word, toNat_field, Instr.op, Op.code, BitVec.toNat_ofNat] at hcode ⊢
      omega
  | decPkt rsv m base size offset ts =>
    match rest, h with
    | _ :: _ :: _ :: _ :: _, h =>
      cases h
      simp only [decPkt_word, toNat_field, toNat_getLsbD, Instr.op, Op.code, BitVec.toNat_ofNat] at hcode ⊢
      omega
  | decFlush rsv =>
    cases h
    simp only [decFlush_word, toNat_field, Instr.op, Op.code, BitVec.toNat_ofNat] at hcode ⊢
    omega

/-- The operand words are taken as they are, from the front (30_encoding R81, R99). -/
theorem operandWords_prefix_of_decodeOp {o : Op} {cw : Word} {rest : List Word} {i : Instr}
    (h : decodeOp o cw rest = .ok i) : operandWords i <+: rest := by
  cases o with
  | reset | rdreg | decFlush =>
    cases h
    exact List.nil_prefix
  | wrreg =>
    match rest, h with
    | _ :: rest, h => cases h; exact ⟨rest, rfl⟩
  | encAu | decPkt =>
    match rest, h with
    | _ :: _ :: _ :: _ :: rest, h => cases h; exact ⟨rest, rfl⟩

theorem encode_prefix_of_decode {ws : List Word} {i : Instr} (h : decode ws = .ok i) : encode i <+: ws := by
  obtain ⟨cw, rest, rfl, hop, hdec, -⟩ := decode_ok h
  rw [encode, commandWord_of_decodeOp hop hdec]
  exact List.cons_prefix_cons.2 ⟨rfl, operandWords_prefix_of_decodeOp hdec⟩

end Sys2Proof

namespace Sys2Proof.Proofs

/-- Settles O1: the command word's opcode selects the format, whose fields are the encoder's. -/
theorem decodeReadsEncode : Obligations.DecodeReadsEncode := decode_encode_append

/-- Settles O2: the command word is rebuilt from its fields, and the operand words are the next ones. -/
theorem encodeReadsDecode : Obligations.EncodeReadsDecode := by
  intro ws i h
  obtain ⟨rest, hws⟩ := encode_prefix_of_decode h
  exact ⟨rest, hws.symm⟩

/-- Settles O3: the commands' words are those of the encoder; the word outside the map is rejected by its OP. -/
theorem specWordsDecode : Obligations.SpecWordsDecode :=
  ⟨decode_encode (.reset 0 true true), decode_encode (.wrreg 0 0x00C#12 0x261#32), decode_encode (.rdreg 0 0x028#12),
    decode_encode (.encAu 0 0x1000#32 2003#32 3#32 0xFFFFFFFF#32),
    decode_encode (.decPkt 0 true 0x3000#32 636#32 12#32 91000#32), decode_encode (.decFlush 0),
    decode_encode (.wrreg 0x100#12 0#12 5#32), decode_cons_illegal.2 ⟨rfl, rfl⟩⟩

end Sys2Proof.Proofs
end

section
/-! What no step changes (10_state R36, 20_memory R60, R62, 30_encoding R80): the log only grows, and IMEM, the stream and
C stay. -/

namespace Sys2Proof.Machine

variable {s t : State} {i : Instr}

theorem EmitsResponses.log_prefix (h : EmitsResponses s t) : s.log <+: t.log := by
  obtain ⟨ws, hlog⟩ := h
  exact ⟨_, hlog.symm⟩

theorem EmitsAus.log_prefix (h : EmitsAus s t) : s.log <+: t.log := by
  obtain ⟨aus, hlog, -, -⟩ := h
  exact ⟨_, hlog.symm⟩

theorem Effect.log_prefix (h : Effect i s t) : s.log <+: t.log := by
  cases i with
  | reset rsv enc dec => exact h.reset_responses.log_prefix
  | wrreg rsv addr data => exact h.wrreg_responses.log_prefix
  | rdreg rsv addr => exact h.rdreg_responses.log_prefix
  | encAu rsv base size pfx dts =>
    obtain ⟨-, hacc, rfl⟩ := h
    exact ⟨_, (congrArg State.log (encodeAccepted_eq hacc.mtu)).symm⟩
  | decPkt rsv m base size offset ts => exact h.decPkt_aus.log_prefix
  | decFlush rsv => exact h.decFlush_aus.log_prefix

theorem decodeAccepted_cap (m : Bool) (base size offset : Nat) (ts : Word) (s : State) :
    (decodeAccepted m base size offset ts s).dec.cap = s.dec.cap := by
  obtain ⟨-, -, -, hcap⟩ := Dec.setup_eq_iff.1 (decodeAccepted_setup m base size offset ts s)
  simpa using hcap

/-- No command changes C, not even a reset (10_state R36). -/
theorem Effect.cap (h : Effect i s t) : t.dec.cap = s.dec.cap := by
  cases i with
  | reset rsv enc dec =>
    obtain ⟨-, rfl⟩ := h
    simp
  | wrreg rsv addr data => obtain ⟨-, ⟨-, rfl⟩ | ⟨r, u, -, -, -, rfl⟩⟩ := h <;> simp
  | rdreg rsv addr => rw [h.rdreg_units.2]
  | encAu rsv base size pfx dts => rw [h.encAu_dec]
  | decPkt rsv m base size offset ts =>
    obtain ⟨-, -, rfl⟩ := h
    exact decodeAccepted_cap ..
  | decFlush rsv =>
    obtain ⟨-, rfl⟩ := h
    simp [finalize_cap]

theorem exec_log_prefix_and_cap (h : exec i s = .next t) : s.log <+: t.log ∧ t.dec.cap = s.dec.cap := by
  obtain hraise | heffect := exec_inv h
  · exact ⟨hraise.responses.log_prefix, by rw [hraise.units.2]⟩
  · exact ⟨heffect.log_prefix, heffect.cap⟩

end Sys2Proof.Machine

namespace Sys2Proof.Proofs

open Sys2Proof.Machine

/-- Settles O7: the frame of a command; the error entry of an opcode outside the map changes ERR and `cp` alone. -/
theorem stepAppendsToLogOnly : Obligations.StepAppendsToLogOnly := by
  intro s t h
  obtain ⟨i, -, hexec⟩ | ⟨op, -, rfl⟩ := step_inv h
  · obtain ⟨⟨ev, hlog⟩, hcap⟩ := exec_log_prefix_and_cap hexec
    obtain ⟨-, hstream, himem⟩ := exec_surroundings hexec
    exact ⟨⟨ev, hlog.symm⟩, himem, hstream, hcap⟩
  · exact ⟨⟨[], by simp⟩, rfl, rfl, rfl⟩

end Sys2Proof.Proofs
end

section
/-! The fragments of one ENC_AU (40_encoder R117 to R120): what each of the splitter's slices holds, and what they depend
on. -/

namespace Sys2Proof.Machine

variable {s t : State} {hdr : List Byte} {ts : Word} {cap src l : Nat}

/-- Each slice carries 1 to `cap` bytes behind its header (40_encoder R113, R118). -/
theorem slices_len {f : Frag} (hcap : 1 ≤ cap)
    (hf : f ∈ (List.range ((l + cap - 1) / cap)).map (sliceFrag s hdr ts cap src l)) :
    f.len = f.payload.length ∧ hdr.length + 1 ≤ f.len ∧ f.len ≤ hdr.length + cap := by
  obtain ⟨i, hi, rfl⟩ := List.mem_map.1 hf
  have hlt : (i + 1) * cap ≤ l + cap - 1 := (Nat.le_div_iff_mul_le hcap).1 (List.mem_range.1 hi)
  have hnext : (i + 1) * cap = i * cap + cap := Nat.succ_mul i cap
  refine ⟨by simp [sliceFrag], ?_⟩
  simp only [sliceFrag]
  omega

/-- The marker is on the last slice and no other (40_encoder R114, R117). -/
theorem slices_marker {k n : Nat} {f : Frag} (hn : n = (l + cap - 1) / cap)
    (hk : ((List.range n).map (sliceFrag s hdr ts cap src l))[k]? = some f) : f.marker = true ↔ k + 1 = n := by
  rw [List.getElem?_map, Option.map_eq_some_iff] at hk
  obtain ⟨i, hi, rfl⟩ := hk
  obtain ⟨-, rfl⟩ := List.getElem?_eq_some_iff.1 hi
  simp [sliceFrag, hn]

/-- A slice depends on the access unit's bytes alone (40_encoder R120). -/
theorem sliceFrag_congr (h : ∀ a, src ≤ a → a < src + l → s.imem.byteAt a = t.imem.byteAt a) (i : Nat) :
    sliceFrag s hdr ts cap src l i = sliceFrag t hdr ts cap src l i := by
  simp only [sliceFrag]
  rw [memRead_congr fun a hlow hhigh => h a (by omega) (by omega)]

/-- What an ENC_AU is accepted for: its operands, ENC_MTU and ENC_CYCLE (40_encoder R110). -/
theorem EncAccepts.congr {base size pfx : Word} (h : EncAccepts s base size pfx) (hmtu : s.enc.mtu = t.enc.mtu)
    (hcycle : s.enc.cycle = t.enc.cycle) : EncAccepts t base size pfx :=
  ⟨h.range, h.pfxLe, hmtu ▸ h.mtu, hcycle ▸ h.cycle, h.short⟩

/-- An ENC_AU that is not accepted emits no fragment (60_exceptions R183). -/
theorem frags_encAu_of_not_accepted {rsv : BitVec 24} {base size pfx dts : Word}
    (hacc : ¬ (rsv = 0 ∧ EncAccepts s base size pfx)) (h : exec (.encAu rsv base size pfx dts) s = .next t) :
    (newEvents s t).filterMap Event.frag? = [] := by
  obtain hraise | ⟨hrsv, haccepts, -⟩ := exec_inv h
  · exact hraise.responses.frags
  · exact absurd ⟨hrsv, haccepts⟩ hacc

end Sys2Proof.Machine

namespace Sys2Proof.Proofs

open Sys2Proof.Machine

/-- Settles O15: the slices side by side are the access unit; the marker is the slice with index J - 1. -/
theorem fragmentsCoverTheAccessUnit : Obligations.FragmentsCoverTheAccessUnit := by
  intro s base size pfx dts hacc
  have hmtu := hacc.mtu
  have hcap : 1 ≤ s.enc.mtu.toNat - 20 := by omega
  have hexec := exec_encAu (dts := dts) hacc
  refine ⟨_, _, hexec, frags_encAu hacc hexec, ?_, fun f hf => ?_, fun k f hk => ?_⟩
  · rw [List.map_map]
    exact sliceFrag_payload_flatten (ts := dts % s.enc.cycle) (auHdr_length (size.toNat - pfx.toNat)) hcap
  · obtain ⟨hlen, hmin, hmax⟩ := slices_len hcap hf
    rw [auHdr_length] at hmin hmax
    exact ⟨hlen, hmin, hmax, by omega⟩
  · rw [slices_marker rfl hk, List.length_map, List.length_range]

/-- Settles O16: both states accept the command or neither does; if both do, the slices are equal one by one. -/
theorem encAuIsPure : Obligations.EncAuIsPure := by
  intro s1 s2 t1 t2 rsv base size pfx dts hmtu hcycle hbytes hexec1 hexec2
  by_cases hacc : rsv = 0 ∧ EncAccepts s1 base size pfx
  · obtain ⟨rfl, hacc1⟩ := hacc
    have hpfx := hacc1.pfxLe
    rw [frags_encAu hacc1 hexec1, frags_encAu (hacc1.congr hmtu hcycle) hexec2, hmtu, hcycle]
    exact List.map_congr_left fun i _ => sliceFrag_congr (fun a hlow hhigh => hbytes a hlow (by omega)) i
  · have hacc2 : ¬ (rsv = 0 ∧ EncAccepts s2 base size pfx) := fun ⟨hrsv, h⟩ =>
      hacc ⟨hrsv, h.congr hmtu.symm hcycle.symm⟩
    rw [frags_encAu_of_not_accepted hacc hexec1, frags_encAu_of_not_accepted hacc2 hexec2]

end Sys2Proof.Proofs
end

section
/-! The ADTS header's bytes (30_encoding section 2, 41_decoder R141; log entry 11) as numbers, and as the layout's fields
side by side. -/

namespace Sys2Proof.Machine

/-- The shifts and masks of R141 as arithmetic; the fields of a byte are joined by `or`, none reaching into another. -/
theorem adts_eq_div_mod (pr : BitVec 2) (sf : BitVec 4) (ch : BitVec 3) (len : BitVec 13) :
    adts pr sf ch len.toNat =
      [0xFF#8, 0xF1#8, BitVec.ofNat 8 (pr.toNat * 2 ^ 6 + (sf.toNat * 2 ^ 2 + ch.toNat / 2 ^ 2)),
        BitVec.ofNat 8 (ch.toNat % 2 ^ 2 * 2 ^ 6 + len.toNat / 2 ^ 11), BitVec.ofNat 8 (len.toNat / 2 ^ 3 % 2 ^ 8),
        BitVec.ofNat 8 (len.toNat % 2 ^ 3 * 2 ^ 5 + 31), 0xFC#8] := by
  have hsf := sf.isLt
  have hch := ch.isLt
  have hlen := len.isLt
  have hmask3 : ch.toNat &&& 3 = ch.toNat % 2 ^ 2 := Nat.and_two_pow_sub_one_eq_mod _ 2
  have hmask7 : len.toNat &&& 7 = len.toNat % 2 ^ 3 := Nat.and_two_pow_sub_one_eq_mod _ 3
  have hmaskFF : len.toNat >>> 3 &&& 0xFF = len.toNat / 2 ^ 3 % 2 ^ 8 := by
    rw [Nat.shiftRight_eq_div_pow]
    exact Nat.and_two_pow_sub_one_eq_mod _ 8
  have hch2 : ch.toNat >>> 2 < 2 ^ 2 := by rw [Nat.shiftRight_eq_div_pow]; omega
  have hlen11 : len.toNat >>> 11 < 2 ^ 6 := by rw [Nat.shiftRight_eq_div_pow]; omega
  have hsfch : sf.toNat <<< 2 + ch.toNat >>> 2 < 2 ^ 6 := by rw [Nat.shiftLeft_eq]; omega
  rw [adts, hmask3, hmask7, hmaskFF, Nat.or_assoc, ← Nat.shiftLeft_add_eq_or_of_lt hch2,
    ← Nat.shiftLeft_add_eq_or_of_lt hsfch, ← Nat.shiftLeft_add_eq_or_of_lt hlen11,
    ← Nat.shiftLeft_add_eq_or_of_lt (b := 0x1F) (i := 5) (by decide)]
  simp only [Nat.shiftLeft_eq, Nat.shiftRight_eq_div_pow]

end Sys2Proof.Machine

namespace Sys2Proof.Proofs

open Sys2Proof.Machine

/-- Settles O24: both sides as numbers; CHANNELS and the length are cut at byte borders, the other fields are not. -/
theorem adtsBytesAreTheLayout : Obligations.AdtsBytesAreTheLayout := by
  intro pr sf ch len
  refine ⟨?_, adts_length _ _ _ _⟩
  have hpr := pr.isLt
  have hsf := sf.isLt
  have hch := ch.isLt
  have hlen := len.isLt
  rw [adts_eq_div_mod]
  simp only [toNat_cat, List.foldl_cons, List.foldl_nil, BitVec.toNat_ofNat]
  omega

end Sys2Proof.Proofs
end

section
/-! IMEM as data (20_memory R60; log entry 3): what a memory in canonical form lists is settled by what it reads. -/

namespace Sys2Proof.Machine

/-- A canonical memory lists exactly the addresses that read as other than an unwritten one (log entry 3). -/
theorem Memory.mem_iff_byteAt {m : Memory} (hm : m.wf) (c : Host.Cell) :
    c ∈ m ↔ m.byteAt c.1 = c.2 ∧ c.2 ≠ Config.imemUnwritten := by
  induction m with
  | nil => exact ⟨fun hc => absurd hc List.not_mem_nil, fun ⟨hread, hwritten⟩ => absurd hread.symm hwritten⟩
  | cons d m ih =>
    obtain ⟨hrise, hcells⟩ := hm
    obtain ⟨habove, hrise⟩ := List.pairwise_cons.1 hrise
    obtain ⟨hd, hcells⟩ := List.forall_mem_cons.1 hcells
    have ih := ih ⟨hrise, hcells⟩
    rw [List.mem_cons, Memory.byteAt]
    by_cases heq : d.1 = c.1
    · have hnot : c ∉ m := fun hc => (habove c hc).ne heq
      rw [if_pos heq, or_iff_left hnot]
      exact ⟨by rintro rfl; exact ⟨rfl, hd.2⟩, fun h => Prod.ext heq.symm h.1.symm⟩
    · have hne : c ≠ d := fun h => heq (congrArg Prod.fst h).symm
      rw [if_neg heq, or_iff_right hne, ih]

/-- The bytes a canonical memory lists are listed by every other that reads alike. -/
theorem Memory.subset_of_byteAt {m n : Memory} (hm : m.wf) (hn : n.wf)
    (h : ∀ a, a < 2 ^ 32 → m.byteAt a = n.byteAt a) : m ⊆ n := by
  intro c hc
  obtain ⟨hread, hwritten⟩ := (Memory.mem_iff_byteAt hm c).1 hc
  have hrange := (hm.2 c hc).1
  exact (Memory.mem_iff_byteAt hn c).2 ⟨by rw [← h c.1 hrange, hread], hwritten⟩

/-- Strictly rising addresses leave one order, and no room for a cell twice. -/
theorem Memory.eq_of_subset {m n : Memory} (hm : m.wf) (hn : n.wf) (hmn : m ⊆ n) (hnm : n ⊆ m) : m = n := by
  have irrefl : Std.Irrefl fun c d : Host.Cell => c.1 < d.1 := ⟨fun c => lt_irrefl c.1⟩
  have antisymm : Std.Antisymm fun c d : Host.Cell => c.1 < d.1 := ⟨fun _ _ hlt hgt => absurd hlt hgt.asymm⟩
  exact List.Subset.antisymm_of_pairwise hm.1 hn.1 hmn hnm

end Sys2Proof.Machine

namespace Sys2Proof.Proofs

open Sys2Proof.Machine

/-- Settles O35: the two lists have the same cells, in the same order. -/
theorem equalMemoriesAreEqualData : Obligations.EqualMemoriesAreEqualData := fun _ _ hm hn h =>
  Memory.eq_of_subset hm hn (Memory.subset_of_byteAt hm hn h) (Memory.subset_of_byteAt hn hm fun a ha => (h a ha).symm)

end Sys2Proof.Proofs
end
